-- ==== Sys2Proof/Word.lean ====
section
/-! DEFINITION. The word types of the block (R10, R20, R40, R60, R73). Every value is unsigned and bit 0 is its least
significant bit (R12). -/

namespace Sys2Proof

/-- A data byte, and the width of ACC (R10: W = 8). -/
abbrev Byte := BitVec 8

/-- An address of the buffer space (R10: AW = 16, R40). -/
abbrev Addr := BitVec 16

/-- The LEN field: an unsigned count of bytes, 0 to 65535 (R10: LW = 16, R65). -/
abbrev Len := BitVec 16

/-- A command word (R10: CW = 48, R60). -/
abbrev CmdWord := BitVec 48

/-- A response word `{K, V}` (R10: RW = 9, R73). -/
abbrev RspWord := BitVec 9

end Sys2Proof
end

