-- ==== Sys2Proof/Config.lean ====
section
/-! DEFINITION. What is fixed for the block, and the one free value. -/

namespace Sys2Proof.Config

/-- INITIAL_VALUE (R10, R32): a hardwired constant, not state; no command reads or writes it as state. -/
def initialValue : Byte := 0xFF

/-- The draw `any8()` of R13 and R95: the byte a VALUE responds while UNSEEDED (R24, U2). It has no body, so nothing can
be proved of any particular draw. Its argument numbers the draws, so two draws need not agree. Log entry 2. -/
opaque any8 : Nat → Byte

end Sys2Proof.Config
end

