-- ==== Sys2Proof/Syntax.lean ====
section
/-! DEFINITION. The commands (R14, R62, R63): one constructor per row of spec/opcode_table.json. -/

namespace Sys2Proof

/-- The data handle (R66): P says whether it is present, BASE is the address of the first byte. BASE is carried when
P = 0 and no rule reads it (R70). -/
structure Handle where
  /-- P: 1 = present, 0 = the source's absent/null handle -/
  present : Bool
  /-- BASE -/
  base : Addr
deriving DecidableEq, Repr

/-- The six commands of the block. -/
inductive Instr where
  /-- RESET, format N (R92) -/
  | reset
  /-- ACCB imm8, format I (R93) -/
  | accb (imm : Byte)
  /-- ACCBUF handle, len, format B (R94) -/
  | accbuf (h : Handle) (len : Len)
  /-- VALUE, format N (R95) -/
  | value
  /-- CALC handle, len, format B (R110) -/
  | calculate (h : Handle) (len : Len)
  /-- VERIFY handle, len, exp8, format V (R111) -/
  | verify (h : Handle) (len : Len) (expected : Byte)
deriving DecidableEq, Repr

end Sys2Proof
end

