-- ==== Sys2Proof/WellFormed.lean ====
section
/-! DEFINITION. The canonical commands of R71: an absent handle carries BASE = 0x0000. The operand widths are in the
types, so this is the only check. A command that fails it still decodes and runs (R66: BASE "is ignored"); it has the
same meaning as its canonical form and only its encoding differs. Log entry 10. -/

namespace Sys2Proof

/-- BASE is zero when P = 0 (R66: "the canonical value is 0x0000"). -/
def Handle.wf (h : Handle) : Bool := h.present || h.base == 0

/-- The canonical form of a handle (R70, R71: "with BASE normalised to 0 when P = 0"). -/
def Handle.canonical (h : Handle) : Handle := if h.present then h else ⟨false, 0⟩

/-- The command is canonical (R71). -/
def Instr.wf : Instr → Bool
  | .reset => true
  | .accb _ => true
  | .accbuf h _ => h.wf
  | .value => true
  | .calculate h _ => h.wf
  | .verify h _ _ => h.wf

/-- The canonical form of a command (R71). -/
def Instr.canonical : Instr → Instr
  | .reset => .reset
  | .accb imm => .accb imm
  | .accbuf h len => .accbuf h.canonical len
  | .value => .value
  | .calculate h len => .calculate h.canonical len
  | .verify h len e => .verify h.canonical len e

end Sys2Proof
end

