-- ==== Sys2Proof/Decode.lean ====
section
/-! DEFINITION. The command word (R60 to R72): its fields, the decoder of R70's listing, total on every 48-bit word and
refusing by name, and after it the encoder of R71. -/

namespace Sys2Proof

/-- Why a word is reserved (R68, U4). The names are the model's: the spec gives a reserved word no meaning and no code. -/
inductive Reserved where
  /-- Z is not zero -/
  | zField
  /-- a field the format does not use is not zero (R67) -/
  | unusedField
  /-- OP is 0x0 or 0x7 to 0xF (R63) -/
  | opcode
deriving DecidableEq, Repr

/-- "command or reserved" (R70). -/
inductive Decoded where
  | command (i : Instr)
  | reserved (why : Reserved)
deriving DecidableEq, Repr

/-- `cmd[47:44]` (R61, R63) -/
def fieldOp (w : CmdWord) : BitVec 4 := w.extractLsb' 44 4
/-- `cmd[43]` (R61, R66) -/
def fieldP (w : CmdWord) : Bool := w.getLsbD 43
/-- `cmd[42:40]` (R61) -/
def fieldZ (w : CmdWord) : BitVec 3 := w.extractLsb' 40 3
/-- `cmd[39:32]` (R61, R64) -/
def fieldImm8 (w : CmdWord) : Byte := w.extractLsb' 32 8
/-- `cmd[31:16]` (R61, R65) -/
def fieldLen (w : CmdWord) : Len := w.extractLsb' 16 16
/-- `cmd[15:0]` (R61, R66) -/
def fieldBase (w : CmdWord) : Addr := w.extractLsb' 0 16

/-- Format N uses no operand field (R62, R67). -/
def unusedN (w : CmdWord) : Bool := fieldP w == false && fieldImm8 w == 0 && fieldLen w == 0 && fieldBase w == 0
/-- Format I uses IMM8 only (R62, R67). -/
def unusedI (w : CmdWord) : Bool := fieldP w == false && fieldLen w == 0 && fieldBase w == 0
/-- Format B does not use IMM8 (R62, R67). -/
def unusedB (w : CmdWord) : Bool := fieldImm8 w == 0

/-- The handle of a word of format B or V; BASE is carried whatever P is (R70). -/
def fieldHandle (w : CmdWord) : Handle := ⟨fieldP w, fieldBase w⟩

/-- A word of a known opcode, whose unused fields are zero or are not (R67). -/
def commandIf (unusedZero : Bool) (i : Instr) : Decoded :=
  if unusedZero then .command i else .reserved .unusedField

/-- R70's listing. Its last arm refuses. -/
def decode (w : CmdWord) : Decoded :=
  if fieldZ w ≠ 0 then .reserved .zField
  else if fieldOp w = 0x1 then commandIf (unusedN w) .reset
  else if fieldOp w = 0x2 then commandIf (unusedI w) (.accb (fieldImm8 w))
  else if fieldOp w = 0x3 then commandIf (unusedB w) (.accbuf (fieldHandle w) (fieldLen w))
  else if fieldOp w = 0x4 then commandIf (unusedN w) .value
  else if fieldOp w = 0x5 then commandIf (unusedB w) (.calculate (fieldHandle w) (fieldLen w))
  else if fieldOp w = 0x6 then .command (.verify (fieldHandle w) (fieldLen w) (fieldImm8 w))
  else .reserved .opcode

/-- A word laid out by R61, with Z = 0b000. -/
def packWord (op : BitVec 4) (p : Bool) (imm : Byte) (len : Len) (base : Addr) : CmdWord :=
  op ++ BitVec.ofBool p ++ 0#3 ++ imm ++ len ++ base

/-- The BASE field an encoded handle gets: zero when the handle is absent (R66, R71). -/
def Handle.baseField (h : Handle) : Addr := if h.present then h.base else 0

/-- The canonical word of a command (R71, R76). -/
def encode : Instr → CmdWord
  | .reset => packWord 0x1 false 0 0 0
  | .accb imm => packWord 0x2 false imm 0 0
  | .accbuf h len => packWord 0x3 h.present 0 len h.baseField
  | .value => packWord 0x4 false 0 0 0
  | .calculate h len => packWord 0x5 h.present 0 len h.baseField
  | .verify h len e => packWord 0x6 h.present e len h.baseField

/-- The match column of R72's table, for the row of a command. -/
def matchWord : Instr → CmdWord
  | .reset => 0x100000000000
  | .accb _ => 0x200000000000
  | .accbuf _ _ => 0x300000000000
  | .value => 0x400000000000
  | .calculate _ _ => 0x500000000000
  | .verify _ _ _ => 0x600000000000

/-- The mask column of R72's table, for the row of a command. -/
def maskWord : Instr → CmdWord
  | .reset => 0xFFFFFFFFFFFF
  | .accb _ => 0xFF00FFFFFFFF
  | .accbuf _ _ => 0xF7FF00000000
  | .value => 0xFFFFFFFFFFFF
  | .calculate _ _ => 0xF7FF00000000
  | .verify _ _ _ => 0xF70000000000

/-- The command word whose low `nbits` bits are those of `w` and whose other bits are zero. A command word is one
parallel 48-bit value, so no byte order enters (R44, R60; log entry 9). -/
def tableWord (nbits w : Nat) : CmdWord := BitVec.ofNat 48 (w % 2 ^ nbits)

/-- What the decoder reads from an opcode-table word. -/
def decodeTableWord (nbits w : Nat) : Option Instr :=
  match decode (tableWord nbits w) with
  | .command i => some i
  | .reserved _ => none

end Sys2Proof
end

