-- ==== Sys2Proof/Machine/State.lean ====
section
/-! DEFINITION. The state of the block with its ports, and why a step can stop (10_state.md; R30, R50, R151). -/

namespace Sys2Proof.Machine

/-- A move of the host (R172): the two things it does to the block's surroundings. Neither happens during a command
(R55, R75). -/
inductive HostMove where
  /-- issue one command word on the CMD port (R34, R75) -/
  | issue (w : CmdWord)
  /-- write one byte of its own buffer memory, between commands (R54, R172 "own the buffer") -/
  | store (a : Addr) (b : Byte)
deriving DecidableEq, Repr

/-- The parameter `admits` of R50: the addresses the launch memory admits. Log entry 7. -/
inductive Admits where
  /-- the default: every address answers -/
  | everywhere
  /-- only the addresses the host has declared -/
  | only (declared : List Addr)
deriving DecidableEq, Repr

/-- The state. The block's own state is the pair (ACC, SEEDED) (R21, R30); the other fields are the inputs, outputs and
parameters R30 names, and one counter of the model's. -/
structure State where
  /-- ACC (R20). While `seeded` is false the field holds no value of the spec's and no step reads it (R24; log entry 1). -/
  acc : Byte
  /-- SEEDED (R22), the ghost bit: true is SEEDED = 1 -/
  seeded : Bool
  /-- the host's moves still to come, oldest first (R30 (a), R75; log entry 3) -/
  stream : List HostMove
  /-- the buffer memory in canonical form (R40, R30 (b)) -/
  mem : List Host.Cell
  /-- the launch memory's parameter (R50) -/
  admits : Admits
  /-- the response words delivered, oldest first (R30 (c), R73, R74) -/
  responses : List RspWord
  /-- the event history of the BUF port, oldest first: the address and the byte of each read (R30, R46) -/
  reads : List (Addr × Byte)
  /-- the model's own: how many draws `any8()` have been made (R95; log entry 2) -/
  draws : Nat
deriving DecidableEq, Repr

/-- Hardware faults. There are none: "there is no error type in this system at all" (R140), and the table of exception
causes is empty (R145). No constructor, so no step ends in a fault (R144). -/
inductive Fault where
deriving DecidableEq, Repr

/-- Why a step has no meaning (R151). None is visible on a port of the block. -/
inductive Refusal where
  /-- raised by an arm of `exec` whose instruction has no meaning yet; safe (it errs toward unprovable) -/
  | notModelled (mnemonic : String)
  /-- raised by `step` on a reserved command word (R68, R151 (b)); safe (it errs toward unprovable) -/
  | reservedWord (why : Reserved)
  /-- raised by ACCBUF, CALC and VERIFY on the first address of the sequence that the launch memory does not admit: the
  block is stuck (R50, R151 (c)); safe (it errs toward unprovable); it cannot arise while `admits` is the default -/
  | stuckRead (a : Addr)
deriving DecidableEq, Repr

/-- Power-on (R33, R160): SEEDED = 0, no response pending, no command in progress, every address admitted. ACC is
unspecified; the field's value is log entry 1's. Nothing of the buffer memory is listed (log entry 6). -/
def State.reset : State where
  acc := 0x00
  seeded := false
  stream := []
  mem := []
  admits := .everywhere
  responses := []
  reads := []
  draws := 0

end Sys2Proof.Machine
end

