-- ==== Sys2Proof/Machine/Flags.lean ====
section
/-! DEFINITION. The block has no status flag, condition code or predicate (R31). The arithmetic that would set one stands
here, so that the carry is dropped in one place (R90, R91). -/

namespace Sys2Proof.Machine

/-- The 9-bit sum `zext_9(a) + zext_9(b)` (R90). -/
def sum9 (a b : Byte) : BitVec 9 := a.setWidth 9 + b.setWidth 9

/-- `add8(a, b)`: bits 7:0 of the sum; bit 8, the carry out, "is discarded silently" (R90, R91). -/
def add8 (a b : Byte) : Byte := (sum9 a b).extractLsb' 0 8

/-- The bytes of a sequence added in order to `a`, each by `add8` (R94, R110). -/
def addBytes (a : Byte) (bs : List Byte) : Byte := bs.foldl add8 a

/-- What CALC and VERIFY compute in the transient accumulator T: INITIAL_VALUE and the bytes (R27, R110). -/
def checksum (bs : List Byte) : Byte := addBytes Config.initialValue bs

end Sys2Proof.Machine
end

