-- ==== Sys2Proof/Machine/Memory.lean ====
section
/-! DEFINITION. The buffer space as a list of cells in one canonical form: addresses strictly rising and below 2^16, and
no cell equal to what an unlisted address reads as (R40, R43, R50; log entry 6). -/

namespace Sys2Proof.Machine

/-- What an address no cell lists reads as. The spec fixes no contents; log entry 6. -/
def unlistedByte : Byte := 0x00

/-- The byte at an address: R50's total function `mem : address -> byte`. -/
def readCells : List Host.Cell → Nat → Byte
  | [], _ => unlistedByte
  | (k, v) :: m, a => if a = k then v else readCells m a

/-- A cell holding `v` at the head of `m`, or none if an unlisted address reads as `v`. -/
def consCell (a : Nat) (v : Byte) (m : List Host.Cell) : List Host.Cell :=
  if v = unlistedByte then m else (a, v) :: m

/-- A store of one byte, by the host: the block never writes memory (R42, R172). -/
def writeCells : List Host.Cell → Nat → Byte → List Host.Cell
  | [], a, v => consCell a v []
  | (k, x) :: m, a, v =>
    if a < k then consCell a v ((k, x) :: m)
    else if a = k then consCell a v m
    else (k, x) :: writeCells m a v

/-- The canonical form of the cells at or above address `lo`. -/
def cellsFrom : Nat → List Host.Cell → Bool
  | _, [] => true
  | lo, (k, v) :: m => decide (lo ≤ k) && decide (k < 2 ^ 16) && v != unlistedByte && cellsFrom (k + 1) m

/-- The canonical form of a buffer memory. -/
def cellsWf (m : List Host.Cell) : Bool := cellsFrom 0 m

end Sys2Proof.Machine
end

