-- ==== Sys2Proof/Machine/Operands.lean ====
section
/-! DEFINITION. The one operand form that reaches memory: a data handle and a length (20_memory.md R46 to R48). -/

namespace Sys2Proof.Machine

/-- `EA(i) = (BASE + i) mod 2^16` (R46, R47). -/
def effectiveAddr (base : Addr) (i : Nat) : Addr := base + BitVec.ofNat 16 i

/-- The number of reads of a bulk command: `if P = 1 then LEN else 0` (R48). -/
def readCount (h : Handle) (len : Len) : Nat := if h.present then len.toNat else 0

/-- The addresses a bulk command reads, in order (R46, R48). -/
def readAddrs (h : Handle) (len : Len) : List Addr := (List.range (readCount h len)).map (effectiveAddr h.base)

/-- The first of the addresses that the launch memory does not admit, if there is one (R50). -/
def firstUnadmitted : Admits → List Addr → Option Addr
  | .everywhere, _ => none
  | .only declared, as => as.find? (fun a => !declared.contains a)

end Sys2Proof.Machine
end

