-- ==== Sys2Proof/Machine/Ops.lean ====
section
/-! DEFINITION. The named operations over ACC, SEEDED, the ports and the host's stream. The block takes no exception and
returns from none (R140, R149, R150), so there is no exception entry here. -/

namespace Sys2Proof.Machine

/-- The outcome of one command or one step. -/
abbrev Result := Host.Outcome State Fault Refusal

/-- `MemRead(a, 1)` (R43, R50). -/
def memRead (s : State) (a : Addr) : Byte := readCells s.mem a.toNat

/-- The bytes of the sequence a handle and a length name (R46). -/
def seqBytes (s : State) (h : Handle) (len : Len) : List Byte := (readAddrs h len).map (memRead s)

/-- The read events of the sequence, in order (R46). -/
def seqReads (s : State) (h : Handle) (len : Len) : List (Addr × Byte) :=
  (readAddrs h len).map (fun a => (a, memRead s a))

/-- The BUF port has made the reads of the sequence. -/
def recordReads (s : State) (h : Handle) (len : Len) : State := { s with reads := s.reads ++ seqReads s h len }

/-- The reads of a bulk command, then `k` with the bytes read. If the launch memory does not admit one of the addresses
the command has no step (R50). The reads all come before `k`: no one can tell, since nothing moves during a command
(R52, R55; log entry 12). -/
def readSequence (h : Handle) (len : Len) (s : State) (k : List Byte → State → Result) : Result :=
  match firstUnadmitted s.admits (readAddrs h len) with
  | none => k (seqBytes s h len) (recordReads s h len)
  | some a => .refused (.stuckRead a)

/-- ACC <- INITIAL_VALUE; SEEDED <- 1 (R92). -/
def seed (s : State) : State := { s with acc := Config.initialValue, seeded := true }

/-- The source's accumulateByte (R93): while UNSEEDED, ACC keeps no value and nothing changes. -/
def accumulateByte (s : State) (b : Byte) : State :=
  { s with acc := if s.seeded then add8 s.acc b else s.acc }

/-- The source's accumulateBytes: "each byte in order by repeated application of accumulateByte" (R94). -/
def accumulateBytes (s : State) (bs : List Byte) : State := bs.foldl accumulateByte s

/-- What a read-out of ACC gives: ACC, or the next draw while UNSEEDED (R24, R95). -/
def readOut (s : State) : Byte := if s.seeded then s.acc else Config.any8 s.draws

/-- The state after a read-out: a draw has been used up if one was made. -/
def afterReadOut (s : State) : State := { s with draws := if s.seeded then s.draws else s.draws + 1 }

/-- `Respond(K, v)`: one response word `{K, v}` on the RSP port (R13, R73). -/
def respond (k : Bool) (v : Byte) (s : State) : State :=
  { s with responses := s.responses ++ [BitVec.ofBool k ++ v] }

/-- A response of kind byte. -/
def respondByte (v : Byte) (s : State) : State := respond false v s

/-- A response of kind boolean: 0x01 for true, 0x00 for false (R73). -/
def respondBool (b : Bool) (s : State) : State := respond true (if b then 0x01 else 0x00) s

/-- The host stores a byte in its buffer memory, between commands (R54, R172). -/
def hostStore (a : Addr) (b : Byte) (s : State) : State := { s with mem := writeCells s.mem a.toNat b }

/-- The host's next move has been taken off the stream. -/
def dropMove (s : State) : State := { s with stream := s.stream.tail }

/-- The host will issue this command word next (log entry 3). -/
def issueFirst (w : CmdWord) (s : State) : State := { s with stream := .issue w :: s.stream }

/-- What the block does when the host has no move left: it is idle (R173; log entry 4). -/
def idle (s : State) : Result := .next s

end Sys2Proof.Machine
end

