-- ==== Sys2Proof/Machine/Accumulate.lean ====
section
/-! DEFINITION. The accumulator commands RESET, ACCB, ACCBUF and VALUE (40_accumulate.md). -/

namespace Sys2Proof.Machine

/-- RESET (R92). -/
def execReset (s : State) : Result := .next (seed s)

/-- ACCB (R93). -/
def execAccb (imm : Byte) (s : State) : Result := .next (accumulateByte s imm)

/-- ACCBUF (R94). The reads are made while UNSEEDED too (corner case (g)). -/
def execAccbuf (h : Handle) (len : Len) (s : State) : Result :=
  readSequence h len s (fun bs t => .next (accumulateBytes t bs))

/-- VALUE (R95). -/
def execValue (s : State) : Result := .next (respondByte (readOut s) (afterReadOut s))

end Sys2Proof.Machine
end

