-- ==== Sys2Proof/Machine/Stateless.lean ====
section
/-! DEFINITION. The stateless commands CALC and VERIFY (41_stateless.md). The transient accumulator T is the local
`checksum` (R27); ACC and SEEDED are neither read nor written (R112). -/

namespace Sys2Proof.Machine

/-- CALC (R110). -/
def execCalc (h : Handle) (len : Len) (s : State) : Result :=
  readSequence h len s (fun bs t => .next (respondByte (checksum bs) t))

/-- VERIFY (R111). -/
def execVerify (h : Handle) (len : Len) (expected : Byte) (s : State) : Result :=
  readSequence h len s (fun bs t => .next (respondBool (checksum bs == expected) t))

end Sys2Proof.Machine
end

