-- ==== Sys2Proof/Machine/Dispatch.lean ====
section
/-! DEFINITION. The dispatch: one arm per command (R63). -/

namespace Sys2Proof.Machine

def exec (i : Instr) (s : State) : Host.Outcome State Fault Refusal :=
  match i with
  | .reset => Sys2Proof.Machine.execReset s
  | .accb imm => Sys2Proof.Machine.execAccb imm s
  | .accbuf h len => Sys2Proof.Machine.execAccbuf h len s
  | .value => Sys2Proof.Machine.execValue s
  | .calculate h len => Sys2Proof.Machine.execCalc h len s
  | .verify h len expected => Sys2Proof.Machine.execVerify h len expected s

end Sys2Proof.Machine
end

