-- ==== Sys2Proof/Machine/Step.lean ====
section
/-! DEFINITION. One step: the head of the host's stream, a command executed whole or a byte stored between two commands
(R11, R75, R172). -/

namespace Sys2Proof.Machine

/-- One step. A reserved word is refused (R68). -/
def step (s : State) : Host.Outcome State Fault Refusal :=
  match s.stream with
  | [] => idle s
  | .store a b :: _ => .next (hostStore a b (dropMove s))
  | .issue w :: _ =>
    match decode w with
    | .command i => exec i (dropMove s)
    | .reserved why => .refused (.reservedWord why)

/-- `s` with the table's word issued next: the block has no program counter and fetches nothing (R29), so the command
stands at the head of the host's stream (log entry 3). -/
def State.withFetchWord (s : State) (nbits w : Nat) : State := issueFirst (tableWord nbits w) s

end Sys2Proof.Machine
end

