-- ==== Sys2Proof/Machine/Asm.lean ====
section
/-! DEFINITION. The assembler of R76: one command a line, a comment from `;` on, an upper-case mnemonic, operands separated by
commas, `null` for P = 0, numbers as R12 writes them. No pseudo-instruction exists (R77). Log entry 16. -/

namespace Sys2Proof.Machine

/-- An operand as written: the keyword `null` or a number of any size. -/
inductive AsmOperand where
  | null
  | num (n : Nat)
deriving DecidableEq, Repr

/-- What one line is: nothing (blank or a comment), one command word, or text the assembler rejects. -/
inductive AsmLine where
  | blank
  | word (w : CmdWord)
  | rejected
deriving DecidableEq, Repr

/-- The value of a hexadecimal digit. -/
def digitValue (c : Char) : Option Nat :=
  if 48 ≤ c.toNat ∧ c.toNat ≤ 57 then some (c.toNat - 48)
  else if 65 ≤ c.toNat ∧ c.toNat ≤ 70 then some (c.toNat - 55)
  else if 97 ≤ c.toNat ∧ c.toNat ≤ 102 then some (c.toNat - 87)
  else none

/-- The digits read so far make `acc`; read the rest in the given radix. -/
def digitsValue (radix acc : Nat) : List Char → Option Nat
  | [] => some acc
  | c :: cs =>
    match digitValue c with
    | some d => if d < radix then digitsValue radix (acc * radix + d) cs else none
    | none => none

/-- A number (R12): `0x` hexadecimal, `0b` binary, bare decimal. -/
def parseNumber : List Char → Option Nat
  | [] => none
  | '0' :: 'x' :: d :: ds => digitsValue 16 0 (d :: ds)
  | '0' :: 'b' :: d :: ds => digitsValue 2 0 (d :: ds)
  | ds => digitsValue 10 0 ds

/-- A space, a tab or a carriage return. -/
def isBlank (c : Char) : Bool := c == ' ' || c == '\t' || c == '\r'

/-- The text without blanks at either end. -/
def trimBlanks (cs : List Char) : List Char := ((cs.dropWhile isBlank).reverse.dropWhile isBlank).reverse

/-- The pieces of a text between separators. -/
def splitAt (sep : Char) : List Char → List (List Char)
  | [] => [[]]
  | c :: cs =>
    if c = sep then [] :: splitAt sep cs
    else match splitAt sep cs with
      | [] => [[c]]
      | p :: ps => (c :: p) :: ps

/-- One operand. -/
def parseOperand (cs : List Char) : Option AsmOperand :=
  if trimBlanks cs = ['n', 'u', 'l', 'l'] then some .null else (parseNumber (trimBlanks cs)).map .num

/-- All operands, or none if one is not well written. -/
def parseOperands : List (List Char) → Option (List AsmOperand)
  | [] => some []
  | o :: os =>
    match parseOperand o, parseOperands os with
    | some a, some as => some (a :: as)
    | _, _ => none

/-- imm8 or exp8: rejected above 255 (R76). -/
def asmByte (n : Nat) : Option Byte := if n ≤ 255 then some (BitVec.ofNat 8 n) else none

/-- len: rejected above 65535 (R76). -/
def asmLen (n : Nat) : Option Len := if n ≤ 65535 then some (BitVec.ofNat 16 n) else none

/-- A handle: `null` is P = 0, a base above 65535 is rejected (R76). -/
def asmHandle : AsmOperand → Option Handle
  | .null => some ⟨false, 0⟩
  | .num n => if n ≤ 65535 then some ⟨true, BitVec.ofNat 16 n⟩ else none

/-- The command of a mnemonic and its operands: the syntax column of R76's table. -/
def asmCommand (mnemonic : List Char) : List AsmOperand → Option Instr
  | [] =>
    if mnemonic = ['R', 'E', 'S', 'E', 'T'] then some .reset
    else if mnemonic = ['V', 'A', 'L', 'U', 'E'] then some .value
    else none
  | [.num b] => if mnemonic = ['A', 'C', 'C', 'B'] then (asmByte b).map .accb else none
  | [h, .num len] =>
    match asmHandle h, asmLen len with
    | some h, some len =>
      if mnemonic = ['A', 'C', 'C', 'B', 'U', 'F'] then some (.accbuf h len)
      else if mnemonic = ['C', 'A', 'L', 'C'] then some (.calculate h len)
      else none
    | _, _ => none
  | [h, .num len, .num e] =>
    match asmHandle h, asmLen len, asmByte e with
    | some h, some len, some e => if mnemonic = ['V', 'E', 'R', 'I', 'F', 'Y'] then some (.verify h len e) else none
    | _, _, _ => none
  | _ => none

/-- One line without its comment and outer blanks. -/
def assembleText (cs : List Char) : AsmLine :=
  if cs = [] then .blank
  else
    let operands := trimBlanks (cs.dropWhile (fun c => !isBlank c))
    match parseOperands (if operands = [] then [] else splitAt ',' operands) with
    | none => .rejected
    | some ops =>
      match asmCommand (cs.takeWhile (fun c => !isBlank c)) ops with
      | some i => .word (encode i)
      | none => .rejected

/-- One line (R76). -/
def assembleLine (line : List Char) : AsmLine := assembleText (trimBlanks (line.takeWhile (fun c => c != ';')))

/-- The words of a text of several lines, or nothing if a line is rejected. -/
def assembleLines : List (List Char) → Option (List CmdWord)
  | [] => some []
  | l :: ls =>
    match assembleLine l, assembleLines ls with
    | .blank, some ws => some ws
    | .word w, some ws => some (w :: ws)
    | _, _ => none

/-- A whole text: one command a line (R76). -/
def assemble (text : List Char) : Option (List CmdWord) := assembleLines (splitAt '\n' text)

end Sys2Proof.Machine
end

