-- ==== Sys2Proof/Safety.lean ====
section
/-! DEFINITION. The terms claims are stated in: the invariant of every step, commands run one after another, the bytes a
command adds, and what two runs must share. -/

namespace Sys2Proof.Machine

/-- A response word that can occur (R73): a byte 0x000 to 0x0FF, or 0x100 or 0x101. -/
def legalResponse (r : RspWord) : Bool := decide (r.toNat ≤ 0x101)

/-- The invariant of every step: the buffer memory is in its canonical form and every response delivered is legal. -/
def State.inv (s : State) : Bool := cellsWf s.mem && s.responses.all legalResponse

/-- The launch memory admits the address (R50). -/
def State.admitsAddr (s : State) (a : Addr) : Bool :=
  match s.admits with
  | .everywhere => true
  | .only declared => declared.contains a

/-- The n bytes of the sequence at `base`: those at (base + i) mod 2^16, i = 0 .. n-1 (R46). -/
def dataBytes (s : State) (base : Addr) (n : Nat) : List Byte :=
  (List.range n).map (fun i => readCells s.mem ((base.toNat + i) % 65536))

/-- The BUF events of that sequence (R46). -/
def dataReads (s : State) (base : Addr) (n : Nat) : List (Addr × Byte) :=
  (List.range n).map (fun i => (BitVec.ofNat 16 ((base.toNat + i) % 65536), readCells s.mem ((base.toNat + i) % 65536)))

/-- The launch memory admits every address of the sequence. -/
def dataAdmitted (s : State) (base : Addr) (n : Nat) : Prop :=
  ∀ i < n, s.admitsAddr (BitVec.ofNat 16 ((base.toNat + i) % 65536)) = true

/-- The sum of the bytes over the integers. -/
def byteSum (bs : List Byte) : Nat := (bs.map BitVec.toNat).sum

/-- The response word of a byte, `{0, v}` (R73). -/
def byteWord (v : Byte) : RspWord := BitVec.ofNat 9 v.toNat

/-- The response word of a boolean (R73). -/
def boolWord (b : Bool) : RspWord := if b then 0x101 else 0x100

/-- Continue with a next state; a fault or a refusal ends the run. -/
def andThen (r : Result) (k : State → Result) : Result :=
  match r with
  | .next s => k s
  | .fault f => .fault f
  | .refused f => .refused f

/-- Change the next state; a fault or a refusal is kept. -/
def mapNext (f : State → State) (r : Result) : Result := andThen r (fun s => .next (f s))

/-- The commands one after another, each to completion (R75). -/
def execAll : List Instr → State → Result
  | [], s => .next s
  | i :: is, s => andThen (exec i s) (execAll is)

/-- The bytes a command adds to ACC over the memory of `s` (R96): none but for ACCB and ACCBUF. -/
def addedBytes (s : State) : Instr → List Byte
  | .accb imm => [imm]
  | .accbuf h len => dataBytes s h.base (readCount h len)
  | _ => []

/-- The BUF events of a command over the memory of `s`: none but for the three bulk commands (R41, R48). -/
def commandReads (s : State) : Instr → List (Addr × Byte)
  | .accbuf h len => dataReads s h.base (readCount h len)
  | .calculate h len => dataReads s h.base (readCount h len)
  | .verify h len _ => dataReads s h.base (readCount h len)
  | _ => []

/-- ACCB or ACCBUF. -/
def isAccumulate : Instr → Bool
  | .accb _ => true
  | .accbuf _ _ => true
  | _ => false

/-- ACCBUF commands over consecutive parts of the sequence at `base`, of the given lengths (R65, R122). -/
def splitCommands : Addr → List Nat → List Instr
  | _, [] => []
  | base, n :: ns =>
    .accbuf ⟨true, base⟩ (BitVec.ofNat 16 n) :: splitCommands (BitVec.ofNat 16 ((base.toNat + n) % 65536)) ns

/-- The two states differ at most in ACC's field, and in that only while UNSEEDED (R24). -/
def hiddenAccOnly (s t : State) : Prop := t = { s with acc := t.acc } ∧ (s.seeded = true → t.acc = s.acc)

/-- Both outcomes are of one kind, with related next states or the same reason. -/
def outcomesAgree (related : State → State → Prop) : Result → Result → Prop
  | .next s, .next t => related s t
  | .fault f, .fault g => f = g
  | .refused f, .refused g => f = g
  | _, _ => False

/-- `k` steps of the machine (R173), stopping at a refusal: what `Host.Core.run` gives of `Sys2Proof.core`. -/
def runSteps : Nat → State → Result
  | 0, s => .next s
  | k + 1, s => andThen (step s) (runSteps k)

/-- The host's moves that issue the commands in order, each in its canonical word (R71, R173). -/
def issueAll (is : List Instr) : List HostMove := is.map (fun i => .issue (encode i))

end Sys2Proof.Machine
end

