-- ==== Sys2Proof/Certificates/Slice0/Obligations.lean ====
section
/-! DEFINITION. The statements for the provers, in the order of the spec's files: encoding, the step, the commands, the
source's properties, the invariants. Where the number of reads of a bulk command is meant it is `readCount h len`, which is
`if P = 1 then LEN else 0` (R48). -/

open Sys2Proof Sys2Proof.Machine

/-! ### Encoding (30_encoding.md) -/

/-- Words written out from the layout of R61 and the opcodes of R63 decode to the commands they stand for. -/
def Obligations.WrittenWordsDecode : Prop :=
  decode 0x100000000000 = .command .reset ∧
  decode 0x200100000000 = .command (.accb 0x01) ∧
  decode 0x380000030100 = .command (.accbuf ⟨true, 0x0100⟩ 3) ∧
  decode 0x300000050000 = .command (.accbuf ⟨false, 0⟩ 5) ∧
  decode 0x400000000000 = .command .value ∧
  decode 0x58000004FFFE = .command (.calculate ⟨true, 0xFFFE⟩ 4) ∧
  decode 0x680500030100 = .command (.verify ⟨true, 0x0100⟩ 3 0x05) ∧
  decode 0x60FF0005BEEF = .command (.verify ⟨false, 0xBEEF⟩ 5 0xFF)

/-- R71: the nine encodings; decoding undoes encoding, with BASE normalised to 0 when P = 0; encoding undoes decoding, but
that a BASE ignored under P = 0 becomes zero. (A word of format N or I has P = 0 and BASE = 0, so clearing BASE leaves it.) -/
def Obligations.EncodeDecodeInverse : Prop :=
  (encode .reset).toNat = 0x100000000000 ∧
  (∀ b : Byte, (encode (.accb b)).toNat = 0x200000000000 + b.toNat * 2 ^ 32) ∧
  (∀ (base : Addr) (len : Len),
    (encode (.accbuf ⟨true, base⟩ len)).toNat = 0x380000000000 + len.toNat * 2 ^ 16 + base.toNat) ∧
  (∀ (base : Addr) (len : Len), (encode (.accbuf ⟨false, base⟩ len)).toNat = 0x300000000000 + len.toNat * 2 ^ 16) ∧
  (encode .value).toNat = 0x400000000000 ∧
  (∀ (base : Addr) (len : Len),
    (encode (.calculate ⟨true, base⟩ len)).toNat = 0x580000000000 + len.toNat * 2 ^ 16 + base.toNat) ∧
  (∀ (base : Addr) (len : Len), (encode (.calculate ⟨false, base⟩ len)).toNat = 0x500000000000 + len.toNat * 2 ^ 16) ∧
  (∀ (base : Addr) (len : Len) (e : Byte), (encode (.verify ⟨true, base⟩ len e)).toNat =
    0x680000000000 + e.toNat * 2 ^ 32 + len.toNat * 2 ^ 16 + base.toNat) ∧
  (∀ (base : Addr) (len : Len) (e : Byte), (encode (.verify ⟨false, base⟩ len e)).toNat =
    0x600000000000 + e.toNat * 2 ^ 32 + len.toNat * 2 ^ 16) ∧
  (∀ i : Instr, decode (encode i) = .command i.canonical) ∧
  (∀ i : Instr, i.wf = true → decode (encode i) = .command i) ∧
  (∀ (w : CmdWord) (i : Instr), decode w = .command i →
    encode i = if w.getLsbD 43 = true then w else w &&& 0xFFFFFFFF0000)

/-- R72: a word is the command of a row exactly when (w AND mask) = match, the rows are disjoint, and the words that are
commands number 1 + 256 + 2^33 + 1 + 2^33 + 2^41. -/
def Obligations.OpcodeTableMatchesAndCounts : Prop :=
  (∀ w : CmdWord,
    (decode w = .command .reset ↔ w &&& 0xFFFFFFFFFFFF = 0x100000000000) ∧
    ((∃ b, decode w = .command (.accb b)) ↔ w &&& 0xFF00FFFFFFFF = 0x200000000000) ∧
    ((∃ h len, decode w = .command (.accbuf h len)) ↔ w &&& 0xF7FF00000000 = 0x300000000000) ∧
    (decode w = .command .value ↔ w &&& 0xFFFFFFFFFFFF = 0x400000000000) ∧
    ((∃ h len, decode w = .command (.calculate h len)) ↔ w &&& 0xF7FF00000000 = 0x500000000000) ∧
    ((∃ h len e, decode w = .command (.verify h len e)) ↔ w &&& 0xF70000000000 = 0x600000000000)) ∧
  (∀ (w : CmdWord) (i j : Instr), w &&& maskWord i = matchWord i → w &&& maskWord j = matchWord j →
    matchWord i = matchWord j) ∧
  Nat.card {w : CmdWord // ∃ i, decode w = .command i} = 1 + 256 + 2 ^ 33 + 1 + 2 ^ 33 + 2 ^ 41

/-- R67, R68: which words are reserved, by the places of their fields; and a reserved word is refused, whatever the state. -/
def Obligations.ReservedWordsAreRefused : Prop :=
  (∀ w : CmdWord, (∃ why, decode w = .reserved why) ↔
    (w.toNat / 2 ^ 44 = 0 ∨ 7 ≤ w.toNat / 2 ^ 44 ∨ w.toNat / 2 ^ 40 % 8 ≠ 0 ∨
      ((w.toNat / 2 ^ 44 = 1 ∨ w.toNat / 2 ^ 44 = 4) ∧ w.toNat % 2 ^ 44 ≠ 0) ∨
      (w.toNat / 2 ^ 44 = 2 ∧ (w.toNat / 2 ^ 43 % 2 ≠ 0 ∨ w.toNat % 2 ^ 32 ≠ 0)) ∨
      ((w.toNat / 2 ^ 44 = 3 ∨ w.toNat / 2 ^ 44 = 5) ∧ w.toNat / 2 ^ 32 % 256 ≠ 0))) ∧
  (∀ (s : State) (w : CmdWord) (rest : List HostMove) (why : Reserved),
    s.stream = .issue w :: rest → decode w = .reserved why → step s = .refused (.reservedWord why))

/-- R66: BASE is ignored when P = 0; a command and its canonical form do the same in every state, and a bulk command with
P = 0 reads nothing. -/
def Obligations.AbsentHandleIgnoresBase : Prop :=
  (∀ (i : Instr) (s : State), exec i.canonical s = exec i s) ∧
  (∀ (base : Addr) (len : Len) (s : State), exec (.accbuf ⟨false, base⟩ len) s = .next s)

/-- The encodings of R76's table, and that an operand out of range is rejected. -/
def Obligations.AssemblerTable : Prop :=
  (asmCommand ['R', 'E', 'S', 'E', 'T'] []).map (fun i => (encode i).toNat) = some 0x100000000000 ∧
  (asmCommand ['V', 'A', 'L', 'U', 'E'] []).map (fun i => (encode i).toNat) = some 0x400000000000 ∧
  (∀ b : Nat, (asmCommand ['A', 'C', 'C', 'B'] [.num b]).map (fun i => (encode i).toNat) =
    if b ≤ 255 then some (0x200000000000 + b * 2 ^ 32) else none) ∧
  (∀ base len : Nat, (asmCommand ['A', 'C', 'C', 'B', 'U', 'F'] [.num base, .num len]).map (fun i => (encode i).toNat) =
    if base ≤ 65535 ∧ len ≤ 65535 then some (0x380000000000 + len * 2 ^ 16 + base) else none) ∧
  (∀ len : Nat, (asmCommand ['A', 'C', 'C', 'B', 'U', 'F'] [.null, .num len]).map (fun i => (encode i).toNat) =
    if len ≤ 65535 then some (0x300000000000 + len * 2 ^ 16) else none) ∧
  (∀ base len : Nat, (asmCommand ['C', 'A', 'L', 'C'] [.num base, .num len]).map (fun i => (encode i).toNat) =
    if base ≤ 65535 ∧ len ≤ 65535 then some (0x580000000000 + len * 2 ^ 16 + base) else none) ∧
  (∀ len : Nat, (asmCommand ['C', 'A', 'L', 'C'] [.null, .num len]).map (fun i => (encode i).toNat) =
    if len ≤ 65535 then some (0x500000000000 + len * 2 ^ 16) else none) ∧
  (∀ base len e : Nat,
    (asmCommand ['V', 'E', 'R', 'I', 'F', 'Y'] [.num base, .num len, .num e]).map (fun i => (encode i).toNat) =
    if base ≤ 65535 ∧ len ≤ 65535 ∧ e ≤ 255 then some (0x680000000000 + e * 2 ^ 32 + len * 2 ^ 16 + base) else none) ∧
  (∀ len e : Nat, (asmCommand ['V', 'E', 'R', 'I', 'F', 'Y'] [.null, .num len, .num e]).map (fun i => (encode i).toNat) =
    if len ≤ 65535 ∧ e ≤ 255 then some (0x600000000000 + e * 2 ^ 32 + len * 2 ^ 16) else none)

/-! ### The step and the host (R11, R75, R172, R173) -/

/-- A step runs the decoded command: when the host's next move issues a word that decodes, the step is that command at the
state whose stream has moved on (R11, R75; that the stream stands in State is the model's choice, log entry 3). -/
def Obligations.StepRunsDecodedCommand : Prop :=
  ∀ (s : State) (w : CmdWord) (rest : List HostMove) (i : Instr),
    s.stream = .issue w :: rest → decode w = .command i → step s = exec i { s with stream := rest }

/-- The word placed by withFetchWord is the very next command, and runs at the state it was placed in (log entry 3). -/
def Obligations.PlacedWordRunsNext : Prop :=
  ∀ (s : State) (nbits w : Nat) (i : Instr), decodeTableWord nbits w = some i →
    step (s.withFetchWord nbits w) = exec i s

/-- The host's store between commands is observed at its address, every other address reads as before and nothing else
changes (R54; that it is a step of its own is the model's choice, log entry 5). The premise is the invariant `cellsWf` (log entry
6). -/
def Obligations.HostStoreIsObserved : Prop :=
  ∀ (s : State) (a : Addr) (b : Byte) (rest : List HostMove), cellsWf s.mem = true → s.stream = .store a b :: rest →
    ∃ t, step s = .next t ∧ memRead t a = b ∧ (∀ a', a' ≠ a → memRead t a' = memRead s a') ∧
      t = { s with stream := rest, mem := t.mem }

/-- Every step that answers takes exactly the head of the stream and makes at most 65535 reads, so a run of as many steps as
the stream is long uses it up (R75, R171); with no move left the block is idle (R173; that idleness is a step that changes
nothing is the model's choice, log entry 4). -/
def Obligations.OneMovePerStep : Prop :=
  (∀ s t : State, step s = .next t → t.stream = s.stream.tail ∧ t.reads.length ≤ s.reads.length + 65535) ∧
  (∀ s t : State, runSteps s.stream.length s = .next t → t.stream = []) ∧
  (∀ s : State, s.stream = [] → ∀ k, runSteps k s = .next s)

/-- Running the host's list of command words is executing the commands in order, each to completion (R75, R173; that the
list stands in State and each step takes its head is the model's choice, log entry 3). -/
def Obligations.RunIsCommandsInOrder : Prop :=
  ∀ (is : List Instr) (s : State),
    runSteps is.length { s with stream := issueAll is } = execAll is { s with stream := [] }

/-- Every buffer contents the host may have is held by one canonical memory and no other (R50; the canonical list is the
model's choice, log entry 6). -/
def Obligations.EveryBufferHasOneMemory : Prop :=
  ∀ f : Addr → Byte, ∃ m, (cellsWf m = true ∧ ∀ a : Addr, readCells m a.toNat = f a) ∧
    ∀ m', cellsWf m' = true → (∀ a : Addr, readCells m' a.toNat = f a) → m' = m

/-! ### The adder and the six commands (40_accumulate.md, 41_stateless.md) -/

/-- R90: add8 is addition modulo 256, and equally the low eight bits of the 9-bit sum. -/
def Obligations.Add8IsModulo256 : Prop :=
  ∀ a b : Byte, (add8 a b).toNat = (a.toNat + b.toNat) % 256 ∧
    add8 a b = (a.zeroExtend 9 + b.zeroExtend 9).truncate 8

/-- R92, R120: RESET is the word 0x100000000000 and completes in every state, with ACC = 0xFF and SEEDED = 1 and nothing
else changed. -/
def Obligations.ResetLoadsInitialValue : Prop :=
  encode .reset = 0x100000000000 ∧
  ∀ s : State, exec .reset s = .next { s with acc := 0xFF, seeded := true }

/-- R93: ACCB is the word 0x20II00000000 and completes in every state: ACC + IMM8 modulo 256 while SEEDED, nothing at all while UNSEEDED. -/
def Obligations.AccbAddsImmediate : Prop :=
  ∀ (b : Byte) (s : State),
    (encode (.accb b)).toNat = 0x200000000000 + b.toNat * 2 ^ 32 ∧
    (s.seeded = true → exec (.accb b) s = .next { s with acc := BitVec.ofNat 8 ((s.acc.toNat + b.toNat) % 256) }) ∧
    (s.seeded = false → exec (.accb b) s = .next s)

/-- R94: ACCBUF is the word 0x3800LLLLBBBB, or 0x3000LLLL0000 with the absent handle, and completes wherever the launch memory admits the sequence: it makes its reads, in order, and adds the bytes
to ACC while SEEDED; while UNSEEDED the reads alone happen. With P = 0 or LEN = 0 the sequence is empty and nothing
changes, whatever the launch memory admits. -/
def Obligations.AccbufAddsSequence : Prop :=
  (∀ (h : Handle) (len : Len), (encode (.accbuf h len)).toNat =
    (if h.present then 0x380000000000 + h.base.toNat else 0x300000000000) + len.toNat * 2 ^ 16) ∧
  ∀ (h : Handle) (len : Len) (s : State), dataAdmitted s h.base (readCount h len) →
    exec (.accbuf h len) s = .next { s with
      acc := if s.seeded then BitVec.ofNat 8 ((s.acc.toNat + byteSum (dataBytes s h.base (readCount h len))) % 256)
        else s.acc
      reads := s.reads ++ dataReads s h.base (readCount h len) }

/-- R95: VALUE is the word 0x400000000000 and completes in every state with one response of kind byte: ACC while SEEDED, some byte while UNSEEDED (which
one is free), and ACC and SEEDED are unchanged. That a counter of draws advances then is the model's choice (log entry 2),
no part of R95. -/
def Obligations.ValueRespondsAcc : Prop :=
  encode .value = 0x400000000000 ∧
  ∀ s : State,
    (s.seeded = true → exec .value s = .next { s with responses := s.responses ++ [byteWord s.acc] }) ∧
    (s.seeded = false → ∃ b : Byte,
      exec .value s = .next { s with responses := s.responses ++ [byteWord b], draws := s.draws + 1 })

/-- R110: CALC is the word 0x5800LLLLBBBB, or 0x5000LLLL0000 with the absent handle, and completes wherever the launch memory admits the sequence, SEEDED or not, with the one response
(255 + the bytes) modulo 256; it makes its reads and changes nothing else. -/
def Obligations.CalcRespondsChecksum : Prop :=
  (∀ (h : Handle) (len : Len), (encode (.calculate h len)).toNat =
    (if h.present then 0x580000000000 + h.base.toNat else 0x500000000000) + len.toNat * 2 ^ 16) ∧
  ∀ (h : Handle) (len : Len) (s : State), dataAdmitted s h.base (readCount h len) →
    exec (.calculate h len) s = .next { s with
      responses := s.responses ++
        [BitVec.ofNat 9 ((255 + byteSum (dataBytes s h.base (readCount h len))) % 256)]
      reads := s.reads ++ dataReads s h.base (readCount h len) }

/-- R111: VERIFY is the word 0x68EELLLLBBBB, or 0x60EELLLL0000 with the absent handle, and completes wherever the launch memory admits the sequence, with the one response 0x101 if
(255 + the bytes) modulo 256 is IMM8 and 0x100 if not; it makes its reads and changes nothing else. -/
def Obligations.VerifyComparesChecksum : Prop :=
  (∀ (h : Handle) (len : Len) (e : Byte), (encode (.verify h len e)).toNat =
    (if h.present then 0x680000000000 + h.base.toNat else 0x600000000000) + e.toNat * 2 ^ 32 + len.toNat * 2 ^ 16) ∧
  ∀ (h : Handle) (len : Len) (e : Byte) (s : State), dataAdmitted s h.base (readCount h len) →
    exec (.verify h len e) s = .next { s with
      responses := s.responses ++
        [if (255 + byteSum (dataBytes s h.base (readCount h len))) % 256 = e.toNat then 0x101 else 0x100]
      reads := s.reads ++ dataReads s h.base (readCount h len) }

/-- R50, R151 (c): at the first address of the sequence that the launch memory does not admit a bulk command is stuck. -/
def Obligations.UnadmittedReadIsStuck : Prop :=
  ∀ (base : Addr) (len : Len) (e : Byte) (s : State) (j : Nat), j < len.toNat → dataAdmitted s base j →
    s.admitsAddr (BitVec.ofNat 16 ((base.toNat + j) % 65536)) = false →
    exec (.accbuf ⟨true, base⟩ len) s = .refused (.stuckRead (BitVec.ofNat 16 ((base.toNat + j) % 65536))) ∧
    exec (.calculate ⟨true, base⟩ len) s = .refused (.stuckRead (BitVec.ofNat 16 ((base.toNat + j) % 65536))) ∧
    exec (.verify ⟨true, base⟩ len e) s = .refused (.stuckRead (BitVec.ofNat 16 ((base.toNat + j) % 65536)))

/-- R135, R144: under the default launch memory every command answers a next state from every state, after at most 65535
reads; no command ever faults; and a bulk command with P = 0 or LEN = 0 answers a next state whatever the launch memory
admits. -/
def Obligations.CommandsAreTotal : Prop :=
  (∀ (i : Instr) (s : State), s.admits = .everywhere →
    ∃ t, exec i s = .next t ∧ t.reads.length ≤ s.reads.length + 65535) ∧
  (∀ (i : Instr) (s : State) (f : Fault), exec i s ≠ .fault f) ∧
  (∀ (h : Handle) (len : Len) (e : Byte) (s : State), h.present = false ∨ len = 0 →
    (∃ t, exec (.accbuf h len) s = .next t) ∧ (∃ t, exec (.calculate h len) s = .next t) ∧
    (∃ t, exec (.verify h len e) s = .next t))

/-! ### What each command leaves alone -/

/-- R23: power-on is UNSEEDED; RESET makes any state SEEDED; no other step changes SEEDED, be it a command, the host's
store or idleness. -/
def Obligations.OnlyResetSeeds : Prop :=
  State.reset.seeded = false ∧
  (∀ s t : State, exec .reset s = .next t → t.seeded = true) ∧
  (∀ (i : Instr) (s t : State), i ≠ .reset → exec i s = .next t → t.seeded = s.seeded) ∧
  (∀ s t : State, step s = .next t →
    (t.seeded = true ↔ s.seeded = true ∨ ∃ rest, s.stream = .issue 0x100000000000 :: rest))

/-- The writers of ACC (R25): it changes only by RESET, by ACCB, and by ACCBUF with P = 1 and LEN > 0; the last two only
while SEEDED. -/
def Obligations.AccWriters : Prop :=
  ∀ (i : Instr) (s t : State), exec i s = .next t → t.acc ≠ s.acc →
    i = .reset ∨ (∃ b, i = .accb b ∧ s.seeded = true) ∨
    (∃ h len, i = .accbuf h len ∧ h.present = true ∧ len ≠ 0 ∧ s.seeded = true)

/-- R42: no command changes any byte of the buffer space, and no step but the host's own store does. -/
def Obligations.BlockNeverWritesMemory : Prop :=
  (∀ (i : Instr) (s t : State), exec i s = .next t → ∀ a, memRead t a = memRead s a) ∧
  (∀ s t : State, step s = .next t → (∀ a b rest, s.stream ≠ .store a b :: rest) → t.mem = s.mem)

/-- The frames. RESET and ACCB change ACC and SEEDED at most; ACCBUF changes ACC and the read history at most; VALUE the
responses and the draws at most; CALC and VERIFY the responses and the read history at most. The memory, the host's stream
and the launch memory change by none. -/
def Obligations.CommandFrames : Prop :=
  (∀ s t : State, exec .reset s = .next t → t = { s with acc := t.acc, seeded := t.seeded }) ∧
  (∀ (b : Byte) (s t : State), exec (.accb b) s = .next t → t = { s with acc := t.acc }) ∧
  (∀ (h : Handle) (len : Len) (s t : State), exec (.accbuf h len) s = .next t →
    t = { s with acc := t.acc, reads := t.reads }) ∧
  (∀ s t : State, exec .value s = .next t → t = { s with responses := t.responses, draws := t.draws }) ∧
  (∀ (h : Handle) (len : Len) (s t : State), exec (.calculate h len) s = .next t →
    t = { s with responses := t.responses, reads := t.reads }) ∧
  (∀ (h : Handle) (len : Len) (e : Byte) (s t : State), exec (.verify h len e) s = .next t →
    t = { s with responses := t.responses, reads := t.reads })

/-- R74: VALUE and CALC deliver exactly one response of kind byte, VERIFY exactly one of kind boolean, the others none. -/
def Obligations.WhichCommandsRespond : Prop :=
  ∀ (i : Instr) (s t : State), exec i s = .next t →
    match i with
    | .reset | .accb _ | .accbuf _ _ => t.responses = s.responses
    | .value | .calculate _ _ => ∃ v : Byte, t.responses = s.responses ++ [BitVec.ofNat 9 v.toNat]
    | .verify _ _ _ => t.responses = s.responses ++ [0x101] ∨ t.responses = s.responses ++ [0x100]

/-- R41, R46, R47, R48: a bulk command reads exactly (if P = 1 then LEN else 0) bytes, ascending from BASE modulo 2^16, each
event with its address and byte; the other commands read nothing. -/
def Obligations.ExactReadsInOrder : Prop :=
  ∀ (i : Instr) (s t : State), exec i s = .next t →
    t.reads = s.reads ++
      match i with
      | .accbuf h len | .calculate h len | .verify h len _ =>
        (List.range (if h.present then len.toNat else 0)).map (fun k =>
          (BitVec.ofNat 16 ((h.base.toNat + k) % 2 ^ 16), memRead s (BitVec.ofNat 16 ((h.base.toNat + k) % 2 ^ 16))))
      | _ => []

/-- What a command does depends on no byte of memory but those it reads (R48, R134): over any other memory that agrees on
them it does the same. R134 excepts one case, the draw of a VALUE while UNSEEDED: that it too is the same byte over both
memories is the model's choice (log entry 2: the draw is a function of the counter), no rule of the spec. -/
def Obligations.OnlyReadBytesMatter : Prop :=
  ∀ (i : Instr) (s : State) (m : List Host.Cell),
    (∀ e ∈ commandReads s i, readCells m e.1.toNat = readCells s.mem e.1.toNat) →
    exec i { s with mem := m } = mapNext (fun t => { t with mem := m }) (exec i s)

/-- R112: CALC and VERIFY neither read nor write ACC or SEEDED: with any other ACC and SEEDED they do the same, and those
are left as they were; all they leave behind is their reads and one response. -/
def Obligations.StatelessIgnoresAcc : Prop :=
  ∀ (h : Handle) (len : Len) (e : Byte) (s : State) (a : Byte) (b : Bool),
    exec (.calculate h len) { s with acc := a, seeded := b } =
      mapNext (fun t => { t with acc := a, seeded := b }) (exec (.calculate h len) s) ∧
    exec (.verify h len e) { s with acc := a, seeded := b } =
      mapNext (fun t => { t with acc := a, seeded := b }) (exec (.verify h len e) s) ∧
    (∀ t, exec (.calculate h len) s = .next t →
      t = { s with responses := t.responses, reads := t.reads } ∧ t.responses.length = s.responses.length + 1) ∧
    (∀ t, exec (.verify h len e) s = .next t →
      t = { s with responses := t.responses, reads := t.reads } ∧ t.responses.length = s.responses.length + 1)

/-- While UNSEEDED the field that holds ACC is never read (R24): two states that differ in it alone run alike for ever, and
differ in it alone until a RESET makes them equal. So the field's value at power-on (log entry 1) decides nothing. That a VALUE
while UNSEEDED responds the same byte in both runs is the model's choice (log entry 2: equal counters make equal draws), not
R24's, which leaves every draw free. -/
def Obligations.UnseededAccIsUnobservable : Prop :=
  ∀ (k : Nat) (s t : State), hiddenAccOnly s t → outcomesAgree hiddenAccOnly (runSteps k s) (runSteps k t)

/-! ### The source's invariants and properties (42_properties.md) -/

/-- R96: the closed form. Commands among which no RESET stands add their bytes: from a SEEDED state to its ACC, after a
RESET to 255; and CALC gives the same formula over its sequence. -/
def Obligations.ClosedForm : Prop :=
  ∀ (is : List Instr) (s : State), s.admits = .everywhere → .reset ∉ is →
    (s.seeded = true → ∃ t, execAll is s = .next t ∧ t.seeded = true ∧
      t.acc.toNat = (s.acc.toNat + byteSum (is.flatMap (addedBytes s))) % 256) ∧
    (∃ t, execAll (.reset :: is) s = .next t ∧ t.seeded = true ∧
      t.acc.toNat = (255 + byteSum (is.flatMap (addedBytes s))) % 256) ∧
    (∀ (h : Handle) (len : Len), ∃ t, exec (.calculate h len) s = .next t ∧
      t.responses = s.responses ++ [BitVec.ofNat 9 ((255 + byteSum (addedBytes s (.accbuf h len))) % 256)])

/-- R113: CALC delivers the byte that the VALUE of RESET; ACCBUF; VALUE delivers, or of RESET, any ACCB and ACCBUF commands
that add the same bytes in the same order, VALUE. The manual sequence leaves ACC equal to it and SEEDED = 1; CALC leaves
both untouched. -/
def Obligations.CalcEqualsManualSequence : Prop :=
  ∀ (h : Handle) (len : Len) (is : List Instr) (s : State), s.admits = .everywhere →
    (∀ i ∈ is, isAccumulate i = true) → is.flatMap (addedBytes s) = addedBytes s (.accbuf h len) →
    ∃ t u w v, exec (.calculate h len) s = .next t ∧
      execAll [.reset, .accbuf h len, .value] s = .next u ∧
      execAll (.reset :: (is ++ [.value])) s = .next w ∧
      t.responses = s.responses ++ [byteWord v] ∧ u.responses = s.responses ++ [byteWord v] ∧
      w.responses = s.responses ++ [byteWord v] ∧
      t.acc = s.acc ∧ t.seeded = s.seeded ∧ u.acc = v ∧ u.seeded = true ∧ w.acc = v ∧ w.seeded = true

/-- R121: from one SEEDED state and memory, any two sequences of ACCB and ACCBUF commands that add the same bytes in the
same order end with the same ACC; in particular ACCBUF base, n equals its n ACCB commands. -/
def Obligations.BatchInvariance : Prop :=
  ∀ (is js : List Instr) (s : State), s.admits = .everywhere → s.seeded = true →
    (∀ i ∈ is, isAccumulate i = true) → (∀ j ∈ js, isAccumulate j = true) →
    is.flatMap (addedBytes s) = js.flatMap (addedBytes s) →
    (∃ t u, execAll is s = .next t ∧ execAll js s = .next u ∧ t.acc = u.acc) ∧
    (∀ (base : Addr) (n : Len), ∃ t u, exec (.accbuf ⟨true, base⟩ n) s = .next t ∧
      execAll ((dataBytes s base n.toNat).map .accb) s = .next u ∧ t.acc = u.acc)

/-- R122: splitting. The byte of CALC BASE, n1+n2 is the byte of the VALUE of RESET; ACCBUF BASE, n1;
ACCBUF (BASE+n1) mod 2^16, n2; VALUE. The same holds for any number of parts, each of at most 65535 bytes: RESET, the parts
and VALUE deliver the byte of the whole sequence, however long, and the byte CALC delivers where it fits one CALC. -/
def Obligations.SplitAccumulation : Prop :=
  (∀ (base : Addr) (n1 n2 : Nat) (s : State), s.admits = .everywhere → n1 + n2 ≤ 65535 →
    ∃ t u v, exec (.calculate ⟨true, base⟩ (BitVec.ofNat 16 (n1 + n2))) s = .next t ∧
      execAll [.reset, .accbuf ⟨true, base⟩ (BitVec.ofNat 16 n1),
        .accbuf ⟨true, BitVec.ofNat 16 ((base.toNat + n1) % 2 ^ 16)⟩ (BitVec.ofNat 16 n2), .value] s = .next u ∧
      t.responses = s.responses ++ [byteWord v] ∧ u.responses = s.responses ++ [byteWord v]) ∧
  (∀ (base : Addr) (ns : List Nat) (s : State), s.admits = .everywhere → (∀ n ∈ ns, n ≤ 65535) →
    ∃ u v, execAll (.reset :: (splitCommands base ns ++ [.value])) s = .next u ∧
      u.responses = s.responses ++ [byteWord v] ∧ v.toNat = (255 + byteSum (dataBytes s base ns.sum)) % 256 ∧
      (ns.sum ≤ 65535 → ∃ t, exec (.calculate ⟨true, base⟩ (BitVec.ofNat 16 ns.sum)) s = .next t ∧
        t.responses = s.responses ++ [byteWord v]))

/-- R123: RESET; VALUE delivers 0x0FF from every state. -/
def Obligations.ResetThenValue : Prop :=
  ∀ s : State, execAll [.reset, .value] s =
    .next { s with acc := 0xFF, seeded := true, responses := s.responses ++ [0x0FF] }

/-- R124, R125: an absent handle with any length, and a zero length with any handle, accumulate nothing and read nothing,
whatever the launch memory admits. -/
def Obligations.NoDataAccumulatesNothing : Prop :=
  ∀ (h : Handle) (len : Len) (e : Byte) (s : State), h.present = false ∨ len = 0 →
    exec (.calculate h len) s = .next { s with responses := s.responses ++ [0x0FF] } ∧
    exec (.accbuf h len) s = .next s ∧
    exec (.verify h len e) s = .next { s with responses := s.responses ++ [if e = 0xFF then 0x101 else 0x100] }

/-- R126: adding the byte b exactly k times to ACC = a gives (a + k*b) mod 256, which is a exactly when 256 divides k*b; for
odd b the smallest such k > 0 is 256. RESET and 256 times ACCB 0x01, or ACCBUF over 256 bytes 0x01, ends with ACC = 0xFF. -/
def Obligations.OverflowWraps : Prop :=
  (∀ (b : Byte) (k : Nat) (s : State), s.seeded = true →
    ∃ t, execAll (List.replicate k (.accb b)) s = .next t ∧ t.acc.toNat = (s.acc.toNat + k * b.toNat) % 256 ∧
      (t.acc = s.acc ↔ k * b.toNat % 256 = 0) ∧
      (b.toNat % 2 = 1 → 0 < k → t.acc = s.acc → 256 ≤ k) ∧
      (k = 256 → t.acc = s.acc)) ∧
  (∀ s : State, ∃ t, execAll (.reset :: List.replicate 256 (.accb 0x01)) s = .next t ∧ t.acc = 0xFF) ∧
  (∀ (base : Addr) (s : State), s.admits = .everywhere → dataBytes s base 256 = List.replicate 256 0x01 →
    ∃ t, execAll [.reset, .accbuf ⟨true, base⟩ 256] s = .next t ∧ t.acc = 0xFF)

/-- R127: the source's concrete scenarios, wherever the three bytes stand. -/
def Obligations.ConcreteScenarios : Prop :=
  ∀ (base : Addr) (s : State), s.admits = .everywhere →
    (dataBytes s base 3 = [0x00, 0x00, 0x00] →
      ∃ t, exec (.calculate ⟨true, base⟩ 3) s = .next t ∧ t.responses = s.responses ++ [0x0FF]) ∧
    (dataBytes s base 3 = [0x01, 0x02, 0x03] →
      (∃ t, exec (.calculate ⟨true, base⟩ 3) s = .next t ∧ t.responses = s.responses ++ [0x005]) ∧
      (∃ t, exec (.verify ⟨true, base⟩ 3 0x05) s = .next t ∧ t.responses = s.responses ++ [0x101]) ∧
      (∃ t, exec (.verify ⟨true, base⟩ 3 0x00) s = .next t ∧ t.responses = s.responses ++ [0x100]))

/-- R128: VERIFY delivers true exactly when CALC with the same P, BASE, LEN over the same memory delivers the byte IMM8, with
the same reads; and the checksum CALC delivers always verifies. -/
def Obligations.VerifyIsCalcCompared : Prop :=
  ∀ (h : Handle) (len : Len) (s t : State), exec (.calculate h len) s = .next t →
    ∃ v : Byte, t.responses = s.responses ++ [byteWord v] ∧
      (∀ e : Byte, ∃ u, exec (.verify h len e) s = .next u ∧ u.reads = t.reads ∧
        (u.responses = s.responses ++ [0x101] ↔ e = v) ∧ (u.responses = s.responses ++ [0x100] ↔ e ≠ v)) ∧
      (∃ u, exec (.verify h len v) s = .next u ∧ u.responses = s.responses ++ [0x101])

/-- R129: sequences whose bytes are a permutation of one another have the same checksum, and accumulate to the same ACC. -/
def Obligations.OrderIndependence : Prop :=
  ∀ (h h' : Handle) (len len' : Len) (s s' : State), s.admits = .everywhere → s'.admits = .everywhere →
    (addedBytes s (.accbuf h len)).Perm (addedBytes s' (.accbuf h' len')) →
    (∃ t t' v, exec (.calculate h len) s = .next t ∧ exec (.calculate h' len') s' = .next t' ∧
      t.responses = s.responses ++ [byteWord v] ∧ t'.responses = s'.responses ++ [byteWord v]) ∧
    (s.seeded = true → s'.seeded = true → s.acc = s'.acc →
      ∃ t t', exec (.accbuf h len) s = .next t ∧ exec (.accbuf h' len') s' = .next t' ∧ t.acc = t'.acc)

/-- R130: a subsequence whose sum is a multiple of 256 changes no checksum, and a byte 0x00 changes no ACC. -/
def Obligations.NeutralSubsequence : Prop :=
  (∀ (h h' : Handle) (len len' : Len) (s s' : State) (s1 z s2 : List Byte),
    s.admits = .everywhere → s'.admits = .everywhere → byteSum z % 256 = 0 →
    addedBytes s (.accbuf h len) = s1 ++ z ++ s2 → addedBytes s' (.accbuf h' len') = s1 ++ s2 →
    ∃ t t' v, exec (.calculate h len) s = .next t ∧ exec (.calculate h' len') s' = .next t' ∧
      t.responses = s.responses ++ [byteWord v] ∧ t'.responses = s'.responses ++ [byteWord v]) ∧
  (∀ s : State, exec (.accb 0x00) s = .next s)

/-- R131: changing exactly one byte of a sequence from v to v' changes its checksum by v' - v, which is not zero, so VERIFY
answers false; two changes whose differences cancel modulo 256 leave VERIFY true. -/
def Obligations.SingleChangeIsDetected : Prop :=
  ∀ (base : Addr) (len : Len) (s : State) (j : Nat) (v' : Byte), s.admits = .everywhere → cellsWf s.mem = true →
    j < len.toNat → v' ≠ memRead s (BitVec.ofNat 16 ((base.toNat + j) % 65536)) →
    ∃ t c, exec (.calculate ⟨true, base⟩ len) s = .next t ∧ t.responses = s.responses ++ [byteWord c] ∧
      (∃ u, exec (.calculate ⟨true, base⟩ len) (hostStore (BitVec.ofNat 16 ((base.toNat + j) % 65536)) v' s) = .next u ∧
        u.responses = s.responses ++ [byteWord (c + (v' - memRead s (BitVec.ofNat 16 ((base.toNat + j) % 65536))))]) ∧
      (∃ u, exec (.verify ⟨true, base⟩ len c) (hostStore (BitVec.ofNat 16 ((base.toNat + j) % 65536)) v' s) = .next u ∧
        u.responses = s.responses ++ [0x100]) ∧
      (∀ (k : Nat) (w' : Byte), k < len.toNat → k ≠ j →
        v' - memRead s (BitVec.ofNat 16 ((base.toNat + j) % 65536)) +
          (w' - memRead s (BitVec.ofNat 16 ((base.toNat + k) % 65536))) = 0 →
        ∃ u, exec (.verify ⟨true, base⟩ len c) (hostStore (BitVec.ofNat 16 ((base.toNat + k) % 65536)) w'
            (hostStore (BitVec.ofNat 16 ((base.toNat + j) % 65536)) v' s)) = .next u ∧
          u.responses = s.responses ++ [0x101])

/-- R132: CALC delivers 0xFF exactly over the sequences whose bytes sum to 0 modulo 256, the empty one among them; and 0x00
is an ordinary result, of the sequences whose bytes sum to 1 modulo 256. -/
def Obligations.InitialValueChecksums : Prop :=
  ∀ (h : Handle) (len : Len) (s : State), s.admits = .everywhere →
    ∃ t, exec (.calculate h len) s = .next t ∧
      (t.responses = s.responses ++ [0x0FF] ↔ byteSum (addedBytes s (.accbuf h len)) % 256 = 0) ∧
      (t.responses = s.responses ++ [0x000] ↔ byteSum (addedBytes s (.accbuf h len)) % 256 = 1)

/-- Over the nine bytes 0x31 to 0x39 CALC delivers 0xDC, which is the check value of no customary CRC (R133). -/
def Obligations.NotACrc : Prop :=
  ∀ (base : Addr) (s : State), s.admits = .everywhere →
    dataBytes s base 9 = [0x31, 0x32, 0x33, 0x34, 0x35, 0x36, 0x37, 0x38, 0x39] →
    (∃ t, exec (.calculate ⟨true, base⟩ 9) s = .next t ∧ t.responses = s.responses ++ [0x0DC]) ∧
    (∀ c : Byte, c = 0xF4 ∨ c = 0x3D ∨ c = 0xB1 ∨ c = 0x26 →
      ∃ t, exec (.verify ⟨true, base⟩ 9 c) s = .next t ∧ t.responses = s.responses ++ [0x100])

/-! ### Power-on and the invariant -/

/-- R160, R33 (a): power-on leaves SEEDED = 0, no response pending and no command in progress, and every address admitted
(R50). What ACC holds then is not stated: see UnseededAccIsUnobservable. -/
def Obligations.PowerOnState : Prop :=
  State.reset.seeded = false ∧ State.reset.responses = [] ∧ State.reset.stream = [] ∧
  (∀ a, State.reset.admitsAddr a = true)

/-- The invariant holds at power-on. No response is pending then (R160); that the memory lists nothing and so is canonical is
the model's choice (log entry 6). -/
def Obligations.PowerOnMeetsInvariant : Prop := State.reset.inv = true

/-- Every step keeps the invariant: every response delivered is a byte, true or false (R73: "no other value
occurs"), and the memory stays canonical (the canonical form is the model's choice, log entry 6). -/
def Obligations.StepKeepsInvariant : Prop :=
  ∀ s t : State, s.inv = true → step s = .next t → t.inv = true
end

