-- ==== Sys2Proof/Laws/Decode.lean ====
section
/-! SUPPORT. A word as the fields of R61 laid end to end: its value, its fields, and its masking field by field. -/

namespace Sys2Proof

theorem toNat_append_add {m n : Nat} (a : BitVec m) (b : BitVec n) : (a ++ b).toNat = a.toNat * 2 ^ n + b.toNat := by
  rw [BitVec.toNat_append, ← Nat.shiftLeft_add_eq_or_of_lt b.isLt, Nat.shiftLeft_eq]

/-- The layout of R61 with Z free. -/
def fieldsWord (op : BitVec 4) (p : Bool) (z : BitVec 3) (imm : Byte) (len : Len) (base : Addr) : CmdWord :=
  op ++ BitVec.ofBool p ++ z ++ imm ++ len ++ base

theorem packWord_eq (op : BitVec 4) (p : Bool) (imm : Byte) (len : Len) (base : Addr) :
    packWord op p imm len base = fieldsWord op p 0 imm len base := rfl

theorem fieldsWord_toNat (op : BitVec 4) (p : Bool) (z : BitVec 3) (imm : Byte) (len : Len) (base : Addr) :
    (fieldsWord op p z imm len base).toNat =
      op.toNat * 2 ^ 44 + p.toNat * 2 ^ 43 + z.toNat * 2 ^ 40 + imm.toNat * 2 ^ 32 + len.toNat * 2 ^ 16 + base.toNat := by
  simp only [fieldsWord, toNat_append_add, BitVec.toNat_ofBool]
  omega

/-- The word is made of its fields. -/
theorem fieldsWord_fields (w : CmdWord) :
    fieldsWord (fieldOp w) (fieldP w) (fieldZ w) (fieldImm8 w) (fieldLen w) (fieldBase w) = w := by
  apply BitVec.eq_of_toNat_eq
  have hw := w.isLt
  have hp : (w.getLsbD 43).toNat = w.toNat / 2 ^ 43 % 2 := by
    rw [BitVec.getLsbD, Nat.testBit_eq_decide_div_mod_eq]
    rcases Nat.mod_two_eq_zero_or_one (w.toNat / 2 ^ 43) with h | h <;> rw [h] <;> rfl
  rw [fieldsWord_toNat]
  simp only [fieldOp, fieldP, fieldZ, fieldImm8, fieldLen, fieldBase, BitVec.extractLsb'_toNat, Nat.shiftRight_eq_div_pow, hp]
  omega

@[simp] theorem fieldOp_fieldsWord (op p z imm len base) : fieldOp (fieldsWord op p z imm len base) = op := by
  apply BitVec.eq_of_toNat_eq
  have := p.toNat_lt
  simp only [fieldOp, BitVec.extractLsb'_toNat, Nat.shiftRight_eq_div_pow, fieldsWord_toNat]
  omega

@[simp] theorem fieldP_fieldsWord (op p z imm len base) : fieldP (fieldsWord op p z imm len base) = p := by
  rw [fieldP, BitVec.getLsbD, Nat.testBit_eq_decide_div_mod_eq, fieldsWord_toNat]
  have h : (op.toNat * 2 ^ 44 + p.toNat * 2 ^ 43 + z.toNat * 2 ^ 40 + imm.toNat * 2 ^ 32 + len.toNat * 2 ^ 16 + base.toNat)
      / 2 ^ 43 % 2 = p.toNat := by
    have := p.toNat_lt
    omega
  rw [h]
  cases p <;> rfl

@[simp] theorem fieldZ_fieldsWord (op p z imm len base) : fieldZ (fieldsWord op p z imm len base) = z := by
  apply BitVec.eq_of_toNat_eq
  have := p.toNat_lt
  simp only [fieldZ, BitVec.extractLsb'_toNat, Nat.shiftRight_eq_div_pow, fieldsWord_toNat]
  omega

@[simp] theorem fieldImm8_fieldsWord (op p z imm len base) : fieldImm8 (fieldsWord op p z imm len base) = imm := by
  apply BitVec.eq_of_toNat_eq
  have := p.toNat_lt
  simp only [fieldImm8, BitVec.extractLsb'_toNat, Nat.shiftRight_eq_div_pow, fieldsWord_toNat]
  omega

@[simp] theorem fieldLen_fieldsWord (op p z imm len base) : fieldLen (fieldsWord op p z imm len base) = len := by
  apply BitVec.eq_of_toNat_eq
  have := p.toNat_lt
  simp only [fieldLen, BitVec.extractLsb'_toNat, Nat.shiftRight_eq_div_pow, fieldsWord_toNat]
  omega

@[simp] theorem fieldBase_fieldsWord (op p z imm len base) : fieldBase (fieldsWord op p z imm len base) = base := by
  apply BitVec.eq_of_toNat_eq
  have := p.toNat_lt
  simp only [fieldBase, BitVec.extractLsb'_toNat, Nat.shiftRight_eq_div_pow, fieldsWord_toNat]
  omega

/-- Masking acts field by field. -/
theorem fieldsWord_and (op op' : BitVec 4) (p p' : Bool) (z z' : BitVec 3) (imm imm' : Byte) (len len' : Len) (base base' : Addr) :
    fieldsWord op p z imm len base &&& fieldsWord op' p' z' imm' len' base' =
      fieldsWord (op &&& op') (p && p') (z &&& z') (imm &&& imm') (len &&& len') (base &&& base') := by
  have hp : BitVec.ofBool p &&& BitVec.ofBool p' = BitVec.ofBool (p && p') := by cases p <;> cases p' <;> rfl
  have h : ((op ++ BitVec.ofBool p ++ z ++ imm ++ len ++ base) &&& (op' ++ BitVec.ofBool p' ++ z' ++ imm' ++ len' ++ base')
      : BitVec (4 + 1 + 3 + 8 + 16 + 16)) = (op &&& op') ++ (BitVec.ofBool p &&& BitVec.ofBool p') ++ (z &&& z') ++
        (imm &&& imm') ++ (len &&& len') ++ (base &&& base') := by
    simp only [BitVec.and_append]
  rw [hp] at h
  exact h

/-- Two words are equal exactly when their fields are. -/
theorem fieldsWord_inj {op op' : BitVec 4} {p p' : Bool} {z z' : BitVec 3} {imm imm' : Byte} {len len' : Len} {base base' : Addr} :
    fieldsWord op p z imm len base = fieldsWord op' p' z' imm' len' base' ↔
      op = op' ∧ p = p' ∧ z = z' ∧ imm = imm' ∧ len = len' ∧ base = base' := by
  constructor
  · intro h
    exact ⟨by simpa using congrArg fieldOp h, by simpa using congrArg fieldP h, by simpa using congrArg fieldZ h,
      by simpa using congrArg fieldImm8 h, by simpa using congrArg fieldLen h, by simpa using congrArg fieldBase h⟩
  · rintro ⟨rfl, rfl, rfl, rfl, rfl, rfl⟩
    rfl

end Sys2Proof
end

