-- ==== Sys2Proof/Laws/State.lean ====
section
/-! SUPPORT. One lemma per field per update of the state. -/

namespace Sys2Proof.Machine

variable (s : State)

@[simp] theorem recordReads_acc (h : Handle) (len : Len) : (recordReads s h len).acc = s.acc := rfl
@[simp] theorem recordReads_seeded (h : Handle) (len : Len) : (recordReads s h len).seeded = s.seeded := rfl
@[simp] theorem recordReads_stream (h : Handle) (len : Len) : (recordReads s h len).stream = s.stream := rfl
@[simp] theorem recordReads_mem (h : Handle) (len : Len) : (recordReads s h len).mem = s.mem := rfl
@[simp] theorem recordReads_admits (h : Handle) (len : Len) : (recordReads s h len).admits = s.admits := rfl
@[simp] theorem recordReads_responses (h : Handle) (len : Len) : (recordReads s h len).responses = s.responses := rfl
@[simp] theorem recordReads_reads (h : Handle) (len : Len) : (recordReads s h len).reads = s.reads ++ seqReads s h len := rfl
@[simp] theorem recordReads_draws (h : Handle) (len : Len) : (recordReads s h len).draws = s.draws := rfl

@[simp] theorem seed_acc : (seed s).acc = Config.initialValue := rfl
@[simp] theorem seed_seeded : (seed s).seeded = true := rfl
@[simp] theorem seed_stream : (seed s).stream = s.stream := rfl
@[simp] theorem seed_mem : (seed s).mem = s.mem := rfl
@[simp] theorem seed_admits : (seed s).admits = s.admits := rfl
@[simp] theorem seed_responses : (seed s).responses = s.responses := rfl
@[simp] theorem seed_reads : (seed s).reads = s.reads := rfl
@[simp] theorem seed_draws : (seed s).draws = s.draws := rfl

@[simp] theorem accumulateByte_acc (b : Byte) : (accumulateByte s b).acc = if s.seeded then add8 s.acc b else s.acc := rfl
@[simp] theorem accumulateByte_seeded (b : Byte) : (accumulateByte s b).seeded = s.seeded := rfl
@[simp] theorem accumulateByte_stream (b : Byte) : (accumulateByte s b).stream = s.stream := rfl
@[simp] theorem accumulateByte_mem (b : Byte) : (accumulateByte s b).mem = s.mem := rfl
@[simp] theorem accumulateByte_admits (b : Byte) : (accumulateByte s b).admits = s.admits := rfl
@[simp] theorem accumulateByte_responses (b : Byte) : (accumulateByte s b).responses = s.responses := rfl
@[simp] theorem accumulateByte_reads (b : Byte) : (accumulateByte s b).reads = s.reads := rfl
@[simp] theorem accumulateByte_draws (b : Byte) : (accumulateByte s b).draws = s.draws := rfl

@[simp] theorem afterReadOut_acc : (afterReadOut s).acc = s.acc := rfl
@[simp] theorem afterReadOut_seeded : (afterReadOut s).seeded = s.seeded := rfl
@[simp] theorem afterReadOut_stream : (afterReadOut s).stream = s.stream := rfl
@[simp] theorem afterReadOut_mem : (afterReadOut s).mem = s.mem := rfl
@[simp] theorem afterReadOut_admits : (afterReadOut s).admits = s.admits := rfl
@[simp] theorem afterReadOut_responses : (afterReadOut s).responses = s.responses := rfl
@[simp] theorem afterReadOut_reads : (afterReadOut s).reads = s.reads := rfl
@[simp] theorem afterReadOut_draws : (afterReadOut s).draws = if s.seeded then s.draws else s.draws + 1 := rfl

@[simp] theorem respond_acc (k : Bool) (v : Byte) : (respond k v s).acc = s.acc := rfl
@[simp] theorem respond_seeded (k : Bool) (v : Byte) : (respond k v s).seeded = s.seeded := rfl
@[simp] theorem respond_stream (k : Bool) (v : Byte) : (respond k v s).stream = s.stream := rfl
@[simp] theorem respond_mem (k : Bool) (v : Byte) : (respond k v s).mem = s.mem := rfl
@[simp] theorem respond_admits (k : Bool) (v : Byte) : (respond k v s).admits = s.admits := rfl
@[simp] theorem respond_responses (k : Bool) (v : Byte) : (respond k v s).responses = s.responses ++ [BitVec.ofBool k ++ v] := rfl
@[simp] theorem respond_reads (k : Bool) (v : Byte) : (respond k v s).reads = s.reads := rfl
@[simp] theorem respond_draws (k : Bool) (v : Byte) : (respond k v s).draws = s.draws := rfl

@[simp] theorem respondByte_acc (v : Byte) : (respondByte v s).acc = s.acc := rfl
@[simp] theorem respondByte_seeded (v : Byte) : (respondByte v s).seeded = s.seeded := rfl
@[simp] theorem respondByte_stream (v : Byte) : (respondByte v s).stream = s.stream := rfl
@[simp] theorem respondByte_mem (v : Byte) : (respondByte v s).mem = s.mem := rfl
@[simp] theorem respondByte_admits (v : Byte) : (respondByte v s).admits = s.admits := rfl
@[simp] theorem respondByte_responses (v : Byte) : (respondByte v s).responses = s.responses ++ [BitVec.ofBool false ++ v] := rfl
@[simp] theorem respondByte_reads (v : Byte) : (respondByte v s).reads = s.reads := rfl
@[simp] theorem respondByte_draws (v : Byte) : (respondByte v s).draws = s.draws := rfl

@[simp] theorem respondBool_acc (b : Bool) : (respondBool b s).acc = s.acc := rfl
@[simp] theorem respondBool_seeded (b : Bool) : (respondBool b s).seeded = s.seeded := rfl
@[simp] theorem respondBool_stream (b : Bool) : (respondBool b s).stream = s.stream := rfl
@[simp] theorem respondBool_mem (b : Bool) : (respondBool b s).mem = s.mem := rfl
@[simp] theorem respondBool_admits (b : Bool) : (respondBool b s).admits = s.admits := rfl
@[simp] theorem respondBool_responses (b : Bool) : (respondBool b s).responses = s.responses ++ [BitVec.ofBool true ++ (if b then 0x01 else 0x00 : Byte)] := rfl
@[simp] theorem respondBool_reads (b : Bool) : (respondBool b s).reads = s.reads := rfl
@[simp] theorem respondBool_draws (b : Bool) : (respondBool b s).draws = s.draws := rfl

@[simp] theorem hostStore_acc (a : Addr) (b : Byte) : (hostStore a b s).acc = s.acc := rfl
@[simp] theorem hostStore_seeded (a : Addr) (b : Byte) : (hostStore a b s).seeded = s.seeded := rfl
@[simp] theorem hostStore_stream (a : Addr) (b : Byte) : (hostStore a b s).stream = s.stream := rfl
@[simp] theorem hostStore_mem (a : Addr) (b : Byte) : (hostStore a b s).mem = writeCells s.mem a.toNat b := rfl
@[simp] theorem hostStore_admits (a : Addr) (b : Byte) : (hostStore a b s).admits = s.admits := rfl
@[simp] theorem hostStore_responses (a : Addr) (b : Byte) : (hostStore a b s).responses = s.responses := rfl
@[simp] theorem hostStore_reads (a : Addr) (b : Byte) : (hostStore a b s).reads = s.reads := rfl
@[simp] theorem hostStore_draws (a : Addr) (b : Byte) : (hostStore a b s).draws = s.draws := rfl

@[simp] theorem dropMove_acc : (dropMove s).acc = s.acc := rfl
@[simp] theorem dropMove_seeded : (dropMove s).seeded = s.seeded := rfl
@[simp] theorem dropMove_stream : (dropMove s).stream = s.stream.tail := rfl
@[simp] theorem dropMove_mem : (dropMove s).mem = s.mem := rfl
@[simp] theorem dropMove_admits : (dropMove s).admits = s.admits := rfl
@[simp] theorem dropMove_responses : (dropMove s).responses = s.responses := rfl
@[simp] theorem dropMove_reads : (dropMove s).reads = s.reads := rfl
@[simp] theorem dropMove_draws : (dropMove s).draws = s.draws := rfl

@[simp] theorem issueFirst_acc (w : CmdWord) : (issueFirst w s).acc = s.acc := rfl
@[simp] theorem issueFirst_seeded (w : CmdWord) : (issueFirst w s).seeded = s.seeded := rfl
@[simp] theorem issueFirst_stream (w : CmdWord) : (issueFirst w s).stream = .issue w :: s.stream := rfl
@[simp] theorem issueFirst_mem (w : CmdWord) : (issueFirst w s).mem = s.mem := rfl
@[simp] theorem issueFirst_admits (w : CmdWord) : (issueFirst w s).admits = s.admits := rfl
@[simp] theorem issueFirst_responses (w : CmdWord) : (issueFirst w s).responses = s.responses := rfl
@[simp] theorem issueFirst_reads (w : CmdWord) : (issueFirst w s).reads = s.reads := rfl
@[simp] theorem issueFirst_draws (w : CmdWord) : (issueFirst w s).draws = s.draws := rfl

theorem accumulateBytes_eq (bs : List Byte) (s : State) :
    accumulateBytes s bs = { s with acc := if s.seeded then addBytes s.acc bs else s.acc } := by
  induction bs generalizing s with
  | nil => simp [accumulateBytes, addBytes]
  | cons b bs ih =>
    have h := ih (accumulateByte s b)
    simp only [accumulateBytes, addBytes, List.foldl_cons] at h ⊢
    rw [h]
    by_cases hs : s.seeded = true <;> simp [accumulateByte, hs]

@[simp] theorem accumulateBytes_acc (bs : List Byte) : (accumulateBytes s bs).acc = if s.seeded then addBytes s.acc bs else s.acc := by
  rw [accumulateBytes_eq]
@[simp] theorem accumulateBytes_seeded (bs : List Byte) : (accumulateBytes s bs).seeded = s.seeded := by
  rw [accumulateBytes_eq]
@[simp] theorem accumulateBytes_stream (bs : List Byte) : (accumulateBytes s bs).stream = s.stream := by
  rw [accumulateBytes_eq]
@[simp] theorem accumulateBytes_mem (bs : List Byte) : (accumulateBytes s bs).mem = s.mem := by
  rw [accumulateBytes_eq]
@[simp] theorem accumulateBytes_admits (bs : List Byte) : (accumulateBytes s bs).admits = s.admits := by
  rw [accumulateBytes_eq]
@[simp] theorem accumulateBytes_responses (bs : List Byte) : (accumulateBytes s bs).responses = s.responses := by
  rw [accumulateBytes_eq]
@[simp] theorem accumulateBytes_reads (bs : List Byte) : (accumulateBytes s bs).reads = s.reads := by
  rw [accumulateBytes_eq]
@[simp] theorem accumulateBytes_draws (bs : List Byte) : (accumulateBytes s bs).draws = s.draws := by
  rw [accumulateBytes_eq]

end Sys2Proof.Machine
end

