-- ==== Sys2Proof/Laws/Ops.lean ====
section
/-! SUPPORT. One specification lemma per shared operation: what it can do, said once. -/

namespace Sys2Proof.Machine

/-- add8 is addition modulo 256 (R90). -/
theorem add8_toNat (a b : Byte) : (add8 a b).toNat = (a.toNat + b.toNat) % 256 := by
  have ha := a.isLt
  have hb := b.isLt
  simp only [add8, sum9, BitVec.extractLsb'_toNat, BitVec.toNat_add, BitVec.toNat_setWidth, Nat.shiftRight_zero]
  omega

theorem add8_eq_add (a b : Byte) : add8 a b = a + b :=
  BitVec.eq_of_toNat_eq (by rw [add8_toNat, BitVec.toNat_add])

@[simp] theorem byteSum_nil : byteSum [] = 0 := rfl
@[simp] theorem byteSum_cons (b : Byte) (bs : List Byte) : byteSum (b :: bs) = b.toNat + byteSum bs := by simp [byteSum]
@[simp] theorem byteSum_append (bs cs : List Byte) : byteSum (bs ++ cs) = byteSum bs + byteSum cs := by simp [byteSum]

theorem byteSum_perm {bs cs : List Byte} (h : bs.Perm cs) : byteSum bs = byteSum cs := (h.map _).sum_eq

@[simp] theorem addBytes_nil (a : Byte) : addBytes a [] = a := rfl
@[simp] theorem addBytes_cons (a b : Byte) (bs : List Byte) : addBytes a (b :: bs) = addBytes (add8 a b) bs := rfl
theorem addBytes_append (a : Byte) (bs cs : List Byte) : addBytes a (bs ++ cs) = addBytes (addBytes a bs) cs := by
  simp [addBytes]

/-- The closed form of adding a sequence (R96). -/
theorem addBytes_toNat (a : Byte) (bs : List Byte) : (addBytes a bs).toNat = (a.toNat + byteSum bs) % 256 := by
  induction bs generalizing a with
  | nil => simpa using (Nat.mod_eq_of_lt a.isLt).symm
  | cons b bs ih => rw [addBytes_cons, ih, add8_toNat, byteSum_cons]; omega

theorem addBytes_eq_ofNat (a : Byte) (bs : List Byte) : addBytes a bs = BitVec.ofNat 8 (a.toNat + byteSum bs) :=
  BitVec.eq_of_toNat_eq (by rw [addBytes_toNat, BitVec.toNat_ofNat])

theorem checksum_toNat (bs : List Byte) : (checksum bs).toNat = (255 + byteSum bs) % 256 := addBytes_toNat _ bs

theorem checksum_eq_ofNat (bs : List Byte) : checksum bs = BitVec.ofNat 8 (255 + byteSum bs) := addBytes_eq_ofNat _ bs

/-- The response word of kind byte (R73). -/
theorem byteWord_eq (v : Byte) : BitVec.ofBool false ++ v = byteWord v := by
  apply BitVec.eq_of_toNat_eq
  rw [BitVec.toNat_append, byteWord, BitVec.toNat_ofNat, Nat.mod_eq_of_lt (by omega)]
  simp

/-- The response word of kind boolean (R73). -/
theorem boolWord_eq (b : Bool) : BitVec.ofBool true ++ (if b then 0x01 else 0x00 : Byte) = boolWord b := by
  cases b <;> rfl

theorem respondByte_eq (v : Byte) (s : State) : respondByte v s = { s with responses := s.responses ++ [byteWord v] } := by
  simp only [respondByte, respond, byteWord_eq]

theorem respondBool_eq (b : Bool) (s : State) : respondBool b s = { s with responses := s.responses ++ [boolWord b] } := by
  simp only [respondBool, respond, boolWord_eq]

theorem effectiveAddr_toNat (base : Addr) (i : Nat) : (effectiveAddr base i).toNat = (base.toNat + i) % 65536 := by
  simp [effectiveAddr, BitVec.toNat_add]

theorem effectiveAddr_eq_ofNat (base : Addr) (i : Nat) :
    effectiveAddr base i = BitVec.ofNat 16 ((base.toNat + i) % 65536) :=
  BitVec.eq_of_toNat_eq (by rw [effectiveAddr_toNat, BitVec.toNat_ofNat]; omega)

theorem memRead_effectiveAddr (s : State) (base : Addr) (i : Nat) :
    memRead s (effectiveAddr base i) = readCells s.mem ((base.toNat + i) % 65536) := by
  rw [memRead, effectiveAddr_toNat]

theorem seqBytes_eq (s : State) (h : Handle) (len : Len) : seqBytes s h len = dataBytes s h.base (readCount h len) := by
  simp [seqBytes, readAddrs, dataBytes, Function.comp_def, memRead_effectiveAddr]

theorem seqReads_eq (s : State) (h : Handle) (len : Len) : seqReads s h len = dataReads s h.base (readCount h len) := by
  simp only [seqReads, readAddrs, dataReads, List.map_map, Function.comp_def, memRead_effectiveAddr]
  simp only [effectiveAddr_eq_ofNat]

@[simp] theorem readCount_absent (base : Addr) (len : Len) : readCount ⟨false, base⟩ len = 0 := rfl
@[simp] theorem readCount_present (base : Addr) (len : Len) : readCount ⟨true, base⟩ len = len.toNat := rfl

theorem readCount_le (h : Handle) (len : Len) : readCount h len ≤ 65535 := by
  have := len.isLt
  unfold readCount
  split <;> omega

theorem dataBytes_add (s : State) (base : Addr) (m n : Nat) :
    dataBytes s base (m + n) = dataBytes s base m ++ dataBytes s (base + BitVec.ofNat 16 m) n := by
  simp only [dataBytes, List.range_add, List.map_append, List.map_map, List.append_cancel_left_eq]
  refine List.map_congr_left (fun i _ => ?_)
  simp only [Function.comp_def, BitVec.toNat_add, BitVec.toNat_ofNat]
  congr 1
  omega

@[simp] theorem dataBytes_length (s : State) (base : Addr) (n : Nat) : (dataBytes s base n).length = n := by simp [dataBytes]
@[simp] theorem dataReads_length (s : State) (base : Addr) (n : Nat) : (dataReads s base n).length = n := by simp [dataReads]
@[simp] theorem dataBytes_zero (s : State) (base : Addr) : dataBytes s base 0 = [] := rfl
@[simp] theorem dataReads_zero (s : State) (base : Addr) : dataReads s base 0 = [] := rfl

/-- No address is unadmitted exactly when the launch memory admits every address of the sequence. -/
theorem firstUnadmitted_eq_none (s : State) (h : Handle) (len : Len) :
    firstUnadmitted s.admits (readAddrs h len) = none ↔ dataAdmitted s h.base (readCount h len) := by
  unfold firstUnadmitted dataAdmitted State.admitsAddr
  cases s.admits with
  | everywhere => simp
  | only declared => simp [readAddrs, List.find?_eq_none, effectiveAddr_eq_ofNat]

theorem dataAdmitted_of_everywhere {s : State} (hs : s.admits = .everywhere) (base : Addr) (n : Nat) :
    dataAdmitted s base n := by
  intro i _
  simp [State.admitsAddr, hs]

/-- A bulk command whose sequence is admitted reads it whole and goes on with the bytes (R46, R48). -/
theorem readSequence_admitted {s : State} {h : Handle} {len : Len} (k : List Byte → State → Result)
    (ha : dataAdmitted s h.base (readCount h len)) :
    readSequence h len s k = k (dataBytes s h.base (readCount h len))
      { s with reads := s.reads ++ dataReads s h.base (readCount h len) } := by
  rw [readSequence, (firstUnadmitted_eq_none s h len).mpr ha]
  simp only [seqBytes_eq, recordReads, seqReads_eq]

/-- All a bulk command's reads can do: the sequence is admitted and read whole, or the command is stuck (R50). -/
theorem readSequence_cases (h : Handle) (len : Len) (s : State) (k : List Byte → State → Result) :
    (dataAdmitted s h.base (readCount h len) ∧
      readSequence h len s k = k (dataBytes s h.base (readCount h len))
        { s with reads := s.reads ++ dataReads s h.base (readCount h len) }) ∨
    (∃ a, firstUnadmitted s.admits (readAddrs h len) = some a ∧ readSequence h len s k = .refused (.stuckRead a)) := by
  cases hf : firstUnadmitted s.admits (readAddrs h len) with
  | none =>
    have ha := (firstUnadmitted_eq_none s h len).mp hf
    exact .inl ⟨ha, readSequence_admitted k ha⟩
  | some a => exact .inr ⟨a, rfl, by simp [readSequence, hf]⟩

end Sys2Proof.Machine
end

