-- ==== Sys2Proof/Laws/Exec.lean ====
section
/-! SUPPORT. One equation per meaning and per kind of step, and what a command that answers a next state can have done. -/

namespace Sys2Proof.Machine

theorem exec_accbuf {s : State} {h : Handle} {len : Len} (ha : dataAdmitted s h.base (readCount h len)) :
    exec (.accbuf h len) s = .next { s with
      acc := if s.seeded then addBytes s.acc (dataBytes s h.base (readCount h len)) else s.acc
      reads := s.reads ++ dataReads s h.base (readCount h len) } := by
  rw [exec, execAccbuf, readSequence_admitted _ ha, accumulateBytes_eq]

theorem exec_calc {s : State} {h : Handle} {len : Len} (ha : dataAdmitted s h.base (readCount h len)) :
    exec (.calculate h len) s = .next { s with
      responses := s.responses ++ [byteWord (checksum (dataBytes s h.base (readCount h len)))]
      reads := s.reads ++ dataReads s h.base (readCount h len) } := by
  rw [exec, execCalc, readSequence_admitted _ ha, respondByte_eq]

theorem exec_verify {s : State} {h : Handle} {len : Len} (e : Byte) (ha : dataAdmitted s h.base (readCount h len)) :
    exec (.verify h len e) s = .next { s with
      responses := s.responses ++ [boolWord (checksum (dataBytes s h.base (readCount h len)) == e)]
      reads := s.reads ++ dataReads s h.base (readCount h len) } := by
  rw [exec, execVerify, readSequence_admitted _ ha, respondBool_eq]

theorem exec_value (s : State) :
    exec .value s = .next { s with
      responses := s.responses ++ [byteWord (readOut s)]
      draws := if s.seeded then s.draws else s.draws + 1 } := by
  rw [exec, execValue, respondByte_eq]
  rfl

/-- Everything a command that answers a next state can have done. -/
theorem exec_next_cases {i : Instr} {s t : State} (ht : exec i s = .next t) :
    (i = .reset ∧ t = seed s) ∨
    (∃ b, i = .accb b ∧ t = accumulateByte s b) ∨
    (∃ h len, i = .accbuf h len ∧ dataAdmitted s h.base (readCount h len) ∧
      t = { s with
        acc := if s.seeded then addBytes s.acc (dataBytes s h.base (readCount h len)) else s.acc
        reads := s.reads ++ dataReads s h.base (readCount h len) }) ∨
    (i = .value ∧ t = { s with
        responses := s.responses ++ [byteWord (readOut s)]
        draws := if s.seeded then s.draws else s.draws + 1 }) ∨
    (∃ h len, i = .calculate h len ∧ dataAdmitted s h.base (readCount h len) ∧
      t = { s with
        responses := s.responses ++ [byteWord (checksum (dataBytes s h.base (readCount h len)))]
        reads := s.reads ++ dataReads s h.base (readCount h len) }) ∨
    (∃ h len e, i = .verify h len e ∧ dataAdmitted s h.base (readCount h len) ∧
      t = { s with
        responses := s.responses ++ [boolWord (checksum (dataBytes s h.base (readCount h len)) == e)]
        reads := s.reads ++ dataReads s h.base (readCount h len) }) := by
  cases i with
  | reset => exact .inl ⟨rfl, by simpa [exec, execReset] using ht.symm⟩
  | accb b => exact .inr (.inl ⟨b, rfl, by simpa [exec, execAccb] using ht.symm⟩)
  | accbuf h len =>
    obtain ⟨ha, -⟩ | ⟨a, -, hr⟩ := readSequence_cases h len s (fun bs t => .next (accumulateBytes t bs))
    · rw [exec_accbuf ha] at ht
      exact .inr (.inr (.inl ⟨h, len, rfl, ha, (Host.Outcome.next.inj ht).symm⟩))
    · rw [exec, execAccbuf, hr] at ht
      cases ht
  | value =>
    rw [exec_value] at ht
    exact .inr (.inr (.inr (.inl ⟨rfl, (Host.Outcome.next.inj ht).symm⟩)))
  | calculate h len =>
    obtain ⟨ha, -⟩ | ⟨a, -, hr⟩ := readSequence_cases h len s (fun bs t => .next (respondByte (checksum bs) t))
    · rw [exec_calc ha] at ht
      exact .inr (.inr (.inr (.inr (.inl ⟨h, len, rfl, ha, (Host.Outcome.next.inj ht).symm⟩))))
    · rw [exec, execCalc, hr] at ht
      cases ht
  | verify h len e =>
    obtain ⟨ha, -⟩ | ⟨a, -, hr⟩ := readSequence_cases h len s (fun bs t => .next (respondBool (checksum bs == e) t))
    · rw [exec_verify e ha] at ht
      exact .inr (.inr (.inr (.inr (.inr ⟨h, len, e, rfl, ha, (Host.Outcome.next.inj ht).symm⟩))))
    · rw [exec, execVerify, hr] at ht
      cases ht

/-- Everything a step that answers a next state can have done: idle, a host's store, or one command. -/
theorem step_next_cases {s t : State} (ht : step s = .next t) :
    (s.stream = [] ∧ t = s) ∨
    (∃ a b rest, s.stream = .store a b :: rest ∧ t = hostStore a b (dropMove s)) ∨
    (∃ w rest i, s.stream = .issue w :: rest ∧ decode w = .command i ∧ exec i (dropMove s) = .next t) := by
  unfold step at ht
  split at ht
  · next hs => exact .inl ⟨hs, by simpa [idle] using ht.symm⟩
  · next a b rest hs => exact .inr (.inl ⟨a, b, rest, hs, (Host.Outcome.next.inj ht).symm⟩)
  · next w rest hs =>
    split at ht
    · next i hi => exact .inr (.inr ⟨w, rest, i, hs, hi, ht⟩)
    · cases ht

theorem coreRun_next {M : Host.Core} {s t : M.State} (k : Nat) (h : M.step s = .next t) : M.run (k + 1) s = M.run k t := by
  rw [Host.Core.run, h]

theorem coreRun_fault {M : Host.Core} {s : M.State} {f : M.Fault} (k : Nat) (h : M.step s = .fault f) :
    M.run (k + 1) s = .fault f := by
  rw [Host.Core.run, h]

theorem coreRun_refused {M : Host.Core} {s : M.State} {r : M.Refusal} (k : Nat) (h : M.step s = .refused r) :
    M.run (k + 1) s = .refused r := by
  rw [Host.Core.run, h]

/-- `runSteps` is the host's own run of the machine. -/
theorem runSteps_eq_core (k : Nat) (s : State) : runSteps k s = Host.Core.run Sys2Proof.core k s := by
  induction k generalizing s with
  | zero => rfl
  | succ k ih =>
    unfold runSteps
    cases h : step s with
    | next t => exact (ih t).trans (coreRun_next (M := Sys2Proof.core) k h).symm
    | fault f => exact (coreRun_fault (M := Sys2Proof.core) k h).symm
    | refused r => exact (coreRun_refused (M := Sys2Proof.core) k h).symm

end Sys2Proof.Machine
end

