-- ==== Sys2Proof/Laws/Memory.lean ====
section
/-! SUPPORT. The laws of the buffer memory: a read after a store, and that a store keeps the canonical form. -/

namespace Sys2Proof.Machine

theorem readCells_consCell (a b : Nat) (v : Byte) (m : List Host.Cell) (habs : readCells m a = unlistedByte) :
    readCells (consCell a v m) b = if b = a then v else readCells m b := by
  unfold consCell
  by_cases hv : v = unlistedByte
  · by_cases hb : b = a
    · simp [hv, hb, habs]
    · simp [hv, hb]
  · simp [hv, readCells]

/-- An address below the cells' bound is not listed. -/
theorem readCells_below {lo a : Nat} {m : List Host.Cell} (hw : cellsFrom lo m = true) (ha : a < lo) :
    readCells m a = unlistedByte := by
  induction m generalizing lo with
  | nil => rfl
  | cons c m ih =>
    obtain ⟨k, v⟩ := c
    simp only [cellsFrom, Bool.and_eq_true, decide_eq_true_eq, bne_iff_ne] at hw
    obtain ⟨⟨⟨hlo, -⟩, -⟩, hm⟩ := hw
    rw [readCells, if_neg (by omega)]
    exact ih hm (by omega)

/-- A bound on the cells may be lowered. -/
theorem cellsFrom_mono {lo lo' : Nat} {m : List Host.Cell} (h : lo' ≤ lo) (hw : cellsFrom lo m = true) :
    cellsFrom lo' m = true := by
  cases m with
  | nil => rfl
  | cons c m =>
    obtain ⟨k, v⟩ := c
    simp only [cellsFrom, Bool.and_eq_true, decide_eq_true_eq, bne_iff_ne] at hw ⊢
    exact ⟨⟨⟨by omega, hw.1.1.2⟩, hw.1.2⟩, hw.2⟩

theorem cellsFrom_consCell {lo a : Nat} {v : Byte} {m : List Host.Cell} (hlo : lo ≤ a) (ha : a < 2 ^ 16)
    (hw : cellsFrom (a + 1) m = true) : cellsFrom lo (consCell a v m) = true := by
  unfold consCell
  by_cases hv : v = unlistedByte
  · rw [if_pos hv]
    exact cellsFrom_mono (by omega) hw
  · rw [if_neg hv]
    simp only [cellsFrom, Bool.and_eq_true, decide_eq_true_eq, bne_iff_ne]
    exact ⟨⟨⟨hlo, ha⟩, hv⟩, hw⟩

/-- A store keeps the canonical form above a bound. -/
theorem cellsFrom_writeCells {lo a : Nat} (v : Byte) {m : List Host.Cell} (hlo : lo ≤ a) (ha : a < 2 ^ 16)
    (hw : cellsFrom lo m = true) : cellsFrom lo (writeCells m a v) = true := by
  induction m generalizing lo with
  | nil => exact cellsFrom_consCell hlo ha rfl
  | cons c m ih =>
    obtain ⟨k, x⟩ := c
    have hw' := hw
    simp only [cellsFrom, Bool.and_eq_true, decide_eq_true_eq, bne_iff_ne] at hw'
    obtain ⟨⟨⟨hk, hk16⟩, hx⟩, hm⟩ := hw'
    unfold writeCells
    by_cases h1 : a < k
    · rw [if_pos h1]
      refine cellsFrom_consCell hlo ha ?_
      simp only [cellsFrom, Bool.and_eq_true, decide_eq_true_eq, bne_iff_ne]
      exact ⟨⟨⟨h1, hk16⟩, hx⟩, hm⟩
    · rw [if_neg h1]
      by_cases h2 : a = k
      · rw [if_pos h2]
        exact cellsFrom_consCell hlo ha (h2 ▸ hm)
      · rw [if_neg h2]
        simp only [cellsFrom, Bool.and_eq_true, decide_eq_true_eq, bne_iff_ne]
        exact ⟨⟨⟨hk, hk16⟩, hx⟩, ih (by omega) hm⟩

/-- Every store into the buffer space keeps the canonical form. -/
theorem cellsWf_writeCells {m : List Host.Cell} (a : Addr) (v : Byte) (hw : cellsWf m = true) :
    cellsWf (writeCells m a.toNat v) = true :=
  cellsFrom_writeCells v (Nat.zero_le _) a.isLt hw

theorem cellsWf_nil : cellsWf [] = true := rfl

/-- A read after a store, for cells in canonical form above a bound. -/
theorem readCells_writeCells_from {lo : Nat} {m : List Host.Cell} (hw : cellsFrom lo m = true) (a b : Nat) (v : Byte) :
    readCells (writeCells m a v) b = if b = a then v else readCells m b := by
  induction m generalizing lo with
  | nil => exact readCells_consCell a b v [] rfl
  | cons c m ih =>
    obtain ⟨k, x⟩ := c
    have hw' := hw
    simp only [cellsFrom, Bool.and_eq_true, decide_eq_true_eq, bne_iff_ne] at hw'
    obtain ⟨⟨⟨hk, hk16⟩, hx⟩, hm⟩ := hw'
    unfold writeCells
    by_cases h1 : a < k
    · rw [if_pos h1]
      refine readCells_consCell a b v _ ?_
      rw [readCells, if_neg (by omega)]
      exact readCells_below hm (by omega)
    · rw [if_neg h1]
      by_cases h2 : a = k
      · rw [if_pos h2, readCells_consCell a b v m (readCells_below hm (by omega)), readCells, h2]
        by_cases hb : b = k <;> simp [hb]
      · rw [if_neg h2, readCells, readCells, ih hm]
        by_cases hb : b = k
        · rw [if_pos hb, if_pos hb, if_neg (by omega)]
        · rw [if_neg hb, if_neg hb]

/-- The byte stored is read back, and every other address reads as before. -/
theorem readCells_writeCells {m : List Host.Cell} (hw : cellsWf m = true) (a b : Nat) (v : Byte) :
    readCells (writeCells m a v) b = if b = a then v else readCells m b :=
  readCells_writeCells_from hw a b v

/-- Canonical memories that read alike are equal. -/
theorem cells_ext_from {lo : Nat} {m m' : List Host.Cell} (hw : cellsFrom lo m = true) (hw' : cellsFrom lo m' = true)
    (h : ∀ a, readCells m a = readCells m' a) : m = m' := by
  induction m generalizing lo m' with
  | nil =>
    cases m' with
    | nil => rfl
    | cons c m' =>
      obtain ⟨k, v⟩ := c
      simp only [cellsFrom, Bool.and_eq_true, decide_eq_true_eq, bne_iff_ne] at hw'
      have := h k
      simp only [readCells, if_pos] at this
      exact absurd this.symm hw'.1.2
  | cons c m ih =>
    obtain ⟨k, v⟩ := c
    have hc := hw
    simp only [cellsFrom, Bool.and_eq_true, decide_eq_true_eq, bne_iff_ne] at hc
    cases m' with
    | nil =>
      have := h k
      simp only [readCells, if_pos] at this
      exact absurd this hc.1.2
    | cons c' m' =>
      obtain ⟨k', v'⟩ := c'
      have hc' := hw'
      simp only [cellsFrom, Bool.and_eq_true, decide_eq_true_eq, bne_iff_ne] at hc'
      have hkk : k = k' := by
        rcases Nat.lt_trichotomy k k' with hlt | heq | hgt
        · have := h k
          rw [readCells, if_pos rfl, readCells, if_neg (by omega), readCells_below hc'.2 (by omega)] at this
          exact absurd this hc.1.2
        · exact heq
        · have := h k'
          rw [readCells, if_neg (by omega), readCells, if_pos rfl, readCells_below hc.2 (by omega)] at this
          exact absurd this.symm hc'.1.2
      subst hkk
      have hv : v = v' := by simpa [readCells] using h k
      subst hv
      congr 1
      refine ih hc.2 hc'.2 (fun a => ?_)
      by_cases ha : a = k
      · rw [ha, readCells_below hc.2 (by omega), readCells_below hc'.2 (by omega)]
      · simpa [readCells, ha] using h a

end Sys2Proof.Machine
end

