-- ==== Sys2Proof/Laws/PerInstr.lean ====
section
/-! SUPPORT. The family MatchMask: every command's canonical word satisfies its row of R72, `(w AND mask) = match`. -/

namespace Sys2Proof.Laws

theorem maskB_eq : (0xF7FF00000000 : CmdWord) = fieldsWord 0xF false 0x7 0xFF 0 0 := by decide
theorem maskV_eq : (0xF70000000000 : CmdWord) = fieldsWord 0xF false 0x7 0 0 0 := by decide
theorem maskI_eq : (0xFF00FFFFFFFF : CmdWord) = fieldsWord 0xF true 0x7 0 0xFFFF 0xFFFF := by decide
theorem maskN_eq : (0xFFFFFFFFFFFF : CmdWord) = fieldsWord 0xF true 0x7 0xFF 0xFFFF 0xFFFF := by decide

namespace MatchMask

/-- The canonical word of the command meets its row of R72's table. -/
def Statement (i : Instr) : Prop := encode i &&& maskWord i = matchWord i

theorem reset : Statement .reset := by unfold Statement; decide

theorem accb (imm : Byte) : Statement (.accb imm) := by
  simp only [Statement, encode, maskWord, matchWord, maskI_eq, packWord_eq, fieldsWord_and]
  simp only [BitVec.ofNat_eq_ofNat, BitVec.and_zero]
  decide

theorem accbuf (h : Handle) (len : Len) : Statement (.accbuf h len) := by
  simp only [Statement, encode, maskWord, matchWord, maskB_eq, packWord_eq, fieldsWord_and]
  simp only [BitVec.ofNat_eq_ofNat, BitVec.and_zero, Bool.and_false]
  decide

theorem value : Statement .value := by unfold Statement; decide

theorem calculate (h : Handle) (len : Len) : Statement (.calculate h len) := by
  simp only [Statement, encode, maskWord, matchWord, maskB_eq, packWord_eq, fieldsWord_and]
  simp only [BitVec.ofNat_eq_ofNat, BitVec.and_zero, Bool.and_false]
  decide

theorem verify (h : Handle) (len : Len) (expected : Byte) : Statement (.verify h len expected) := by
  simp only [Statement, encode, maskWord, matchWord, maskV_eq, packWord_eq, fieldsWord_and]
  simp only [BitVec.ofNat_eq_ofNat, BitVec.and_zero, Bool.and_false]
  decide

end MatchMask

end Sys2Proof.Laws
end

