-- ==== Sys2Proof/Tests/Slice0.lean ====
section
/-! SUPPORT. The model's own tests. Expected values are those of spec/95_test_vectors.md (S and V numbers) or hand
calculations from the rules; then one witness for the hypotheses of each statement. -/

namespace Sys2Proof.Tests
open Sys2Proof Sys2Proof.Machine

/-- The buffer memory of 95_test_vectors.md, the cells the tests read. -/
def sampleMem : List Host.Cell :=
  [(0x0000, 0x30), (0x0001, 0x40), (0x0100, 0x01), (0x0101, 0x02), (0x0102, 0x03), (0x0103, 0x04), (0xFFFE, 0x10), (0xFFFF, 0x20)]

/-- Power-on over that memory. -/
def unseededState : State := { State.reset with mem := sampleMem }

/-- SEEDED with the given ACC over that memory. -/
def seededState (acc : Byte) : State := { unseededState with acc := acc, seeded := true }

/-- Only 0x0100 and 0x0101 are admitted. -/
def narrowState : State := { seededState 0x05 with admits := .only [0x0100, 0x0101] }

/-- The host is about to issue a word. -/
def issuing (s : State) (w : CmdWord) : State := s.withFetchWord 48 w.toNat

def isNext : Result → Bool
  | .next _ => true
  | _ => false

def accOf : Result → Option (Byte × Bool)
  | .next s => some (s.acc, s.seeded)
  | _ => none

def responsesOf : Result → Option (List RspWord)
  | .next s => some s.responses
  | _ => none

def readsOf : Result → Option (List Addr)
  | .next s => some (s.reads.map Prod.fst)
  | _ => none

def refusalOf : Result → Option Refusal
  | .refused r => some r
  | _ => none

/-! ### WellFormed -/

theorem test_wellformed_refuses_accbuf_absent_base : (Instr.accbuf ⟨false, 0xABCD⟩ 5).wf = false := by decide
theorem test_wellformed_refuses_calc_absent_base : (Instr.calculate ⟨false, 1⟩ 5).wf = false := by decide
theorem test_wellformed_refuses_verify_absent_base : (Instr.verify ⟨false, 0x8000⟩ 5 0).wf = false := by decide
theorem test_wellformed_accepts_address_zero : (Instr.accbuf ⟨true, 0⟩ 5).wf = true := by decide

/-! ### Decoding (section 2.9; words written from R61 and R63) -/

theorem test_decode_reset : decode 0b000100000000000000000000000000000000000000000000 = .command .reset := by decide
theorem test_decode_accb : decode 0b001000001111111100000000000000000000000000000000 = .command (.accb 0xFF) := by decide
theorem test_decode_accbuf : decode 0b001110000000000000000000000000110000000100000000 = .command (.accbuf ⟨true, 0x0100⟩ 3) := by decide
theorem test_decode_value : decode 0b010000000000000000000000000000000000000000000000 = .command .value := by decide
theorem test_decode_calc : decode 0b010110000000000000000000000001001111111111111110 = .command (.calculate ⟨true, 0xFFFE⟩ 4) := by decide
theorem test_decode_verify : decode 0b011010000000010100000000000000110000000100000000 = .command (.verify ⟨true, 0x0100⟩ 3 0x05) := by decide
/-- V89 to V93: the ignored BASE, address zero, and every field at its extreme. -/
theorem test_decode_handles :
    decode 0x30000005ABCD = .command (.accbuf ⟨false, 0xABCD⟩ 5) ∧ decode 0x60FF0005BEEF = .command (.verify ⟨false, 0xBEEF⟩ 5 0xFF) ∧
    decode 0x380000000000 = .command (.accbuf ⟨true, 0⟩ 0) ∧ decode 0x6800FFFFFFFF = .command (.verify ⟨true, 0xFFFF⟩ 65535 0) ∧
    decode 0x3800FFFFFFFF = .command (.accbuf ⟨true, 0xFFFF⟩ 65535) := by decide
/-- V69 to V87: the reserved words, each with its reason. -/
theorem test_decode_reserved_opcode :
    [0x000000000000, 0x700000000000, 0xF00000000000].map decode = List.replicate 3 (.reserved .opcode) := by decide
theorem test_decode_reserved_z :
    [0xFFFFFFFFFFFF, 0x110000000000, 0x3C0000030100, 0x610500030100, 0x6F0500030100].map decode =
      List.replicate 5 (.reserved .zField) := by decide
theorem test_decode_reserved_unused :
    [0x180000000000, 0x100100000000, 0x100000010000, 0x100000000001, 0x280100000000, 0x200100010000, 0x200100000001,
      0x300100030100, 0x480000000000, 0x400000000001, 0x50FF00030100].map decode = List.replicate 11 (.reserved .unusedField) := by decide
theorem test_decodeTableWord : decodeTableWord 48 0x200100000000 = some (.accb 0x01) := by decide
theorem test_decodeTableWord_reserved : decodeTableWord 48 0x700000000000 = none := by decide

/-! ### The adder (section 2.1: V1 to V7) -/

theorem test_add8 : [add8 0x00 0x00, add8 0xFF 0x01, add8 0xFF 0xFF, add8 0x80 0x80, add8 0x7F 0x01, add8 0x12 0x34, add8 0xFE 0x01] =
    [0x00, 0x00, 0xFE, 0x00, 0x80, 0x46, 0xFF] := by decide

/-! ### The buffer memory -/

theorem test_store_of_unlisted_byte_removes_cell : writeCells [(5, 0x01), (7, 0x02)] 5 0x00 = [(7, 0x02)] := by decide
theorem test_store_keeps_addresses_rising : writeCells [(5, 0x01), (7, 0x02)] 6 0x03 = [(5, 0x01), (6, 0x03), (7, 0x02)] := by decide
theorem test_sampleMem_wf : cellsWf sampleMem = true := by decide
theorem test_cellsWf_refuses : [[(7, 1), (5, 1)], [(5, 0)], [(65536, 1)], [(5, 1), (5, 2)]].map cellsWf = List.replicate 4 false := by decide

/-! ### The commands, each as one step -/

/-- V8. -/
theorem test_reset_from_power_on : accOf (step (issuing unseededState 0x100000000000)) = some (0xFF, true) := by decide
/-- V11: the sum wraps. -/
theorem test_accb_wraps : accOf (step (issuing (seededState 0xFF) 0x200100000000)) = some (0x00, true) := by decide
/-- V34: accepted while UNSEEDED, which it stays. -/
theorem test_accb_unseeded : (accOf (step (issuing unseededState 0x200100000000))).map Prod.snd = some false := by decide
/-- V29: it goes on from ACC. -/
theorem test_accbuf_continues : accOf (step (issuing (seededState 0x05) 0x380000040100)) = some (0x0F, true) := by decide
/-- P4.2: the reads wrap at the top of the address space, in order. -/
theorem test_accbuf_reads_wrap :
    readsOf (step (issuing (seededState 0xFF) 0x38000004FFFE)) = some [0xFFFE, 0xFFFF, 0x0000, 0x0001] := by decide
/-- V30. -/
theorem test_value : responsesOf (step (issuing (seededState 0x0F) 0x400000000000)) = some [0x00F] := by decide
/-- V33: one response of kind byte (bit 8 is 0), which one is free. -/
theorem test_value_unseeded : responsesOf (step (issuing unseededState 0x400000000000)) = some [byteWord (Config.any8 0)] :=
  congrArg (fun r => some [r]) (byteWord_eq (Config.any8 0))
/-- V40, from UNSEEDED. -/
theorem test_calc_wraps : responsesOf (step (issuing unseededState 0x58000004FFFE)) = some [0x09F] := by decide
/-- V60: ACC is left alone. -/
theorem test_calc_keeps_acc : accOf (step (issuing (seededState 0x37) 0x580000030100)) = some (0x37, true) := by decide
/-- S.5. -/
theorem test_verify_true : responsesOf (step (issuing unseededState 0x680500030100)) = some [0x101] := by decide
/-- V57. -/
theorem test_verify_false : responsesOf (step (issuing unseededState 0x680600030100)) = some [0x100] := by decide
/-- P6: a reserved word is refused. -/
theorem test_reserved_refused : refusalOf (step (issuing unseededState 0x700000000000)) = some (.reservedWord .opcode) := by decide
/-- R50: the first unadmitted address of the sequence. -/
theorem test_stuck_read : refusalOf (step (issuing narrowState 0x380000030100)) = some (.stuckRead 0x0102) := by decide
/-- R125: no read is made, so an unadmitted BASE does not matter. -/
theorem test_zero_length_unadmitted : responsesOf (step (issuing narrowState 0x580000000200)) = some [0x0FF] := by decide
theorem test_host_store : (step { unseededState with stream := [.store 0x0200 0x07] }) =
    .next { unseededState with mem := writeCells sampleMem 0x0200 0x07 } := by rfl
theorem test_idle : step unseededState = .next unseededState := by rfl

/-! ### The assembler (R76) -/

theorem test_assemble_line : assembleLine ['V', 'E', 'R', 'I', 'F', 'Y', ' ', '0', 'x', '0', '1', '0', '0', ',', ' ', '3', ',', '0', 'x', '0', '5', ';', 'x'] =
    .word 0x680500030100 := by decide
theorem test_assemble_null : assembleLine ['A', 'C', 'C', 'B', 'U', 'F', ' ', 'n', 'u', 'l', 'l', ',', ' ', '5'] = .word 0x300000050000 := by decide
theorem test_assemble_rejects_256 : assembleLine ['A', 'C', 'C', 'B', ' ', '2', '5', '6'] = .rejected := by decide
theorem test_assemble_text : assemble ['R', 'E', 'S', 'E', 'T', '\n', ' ', ';', '\n', 'V', 'A', 'L', 'U', 'E'] =
    some [0x100000000000, 0x400000000000] := by decide

/-! ### Witnesses: what each statement assumes can be met -/

theorem next_of_isNext {r : Result} (h : isNext r = true) : ∃ t, r = .next t := by
  cases r with
  | next t => exact ⟨t, rfl⟩
  | fault f => exact f.casesOn
  | refused r => cases h

theorem witness_EncodeDecodeInverse :
    (Instr.verify ⟨true, 0xFFFF⟩ 65535 0xFF).wf = true ∧ (Instr.accbuf ⟨false, 0⟩ 65535).wf = true ∧
    decode 0x30000005ABCD = .command (.accbuf ⟨false, 0xABCD⟩ 5) ∧ (0x30000005ABCD : CmdWord).getLsbD 43 = false ∧
    decode 0x6800FFFFFFFF = .command (.verify ⟨true, 0xFFFF⟩ 65535 0) ∧ (0x6800FFFFFFFF : CmdWord).getLsbD 43 = true := by decide

theorem witness_OpcodeTableMatchesAndCounts :
    (0x20FF00000000 : CmdWord) &&& maskWord (.accb 0) = matchWord (.accb 0) ∧
    (0x20FF00000000 : CmdWord) &&& maskWord (.accb 1) = matchWord (.accb 1) := by decide

theorem witness_ReservedWordsAreRefused : ∃ (s : State) (w : CmdWord) (rest : List HostMove) (why : Reserved),
    s.stream = .issue w :: rest ∧ decode w = .reserved why :=
  ⟨issuing unseededState 0x6F0500030100, 0x6F0500030100, [], .zField, by decide⟩

theorem witness_StepRunsDecodedCommand : ∃ (s : State) (w : CmdWord) (rest : List HostMove) (i : Instr),
    s.stream = .issue w :: rest ∧ decode w = .command i :=
  ⟨issuing unseededState 0x200100000000, 0x200100000000, [], .accb 0x01, by decide⟩

theorem witness_PlacedWordRunsNext : decodeTableWord 48 0x6800FFFFFFFF = some (.verify ⟨true, 0xFFFF⟩ 65535 0) := by decide

theorem witness_HostStoreIsObserved : ∃ (s : State) (a : Addr) (b : Byte) (rest : List HostMove),
    cellsWf s.mem = true ∧ s.stream = .store a b :: rest ∧ ∃ a' : Addr, a' ≠ a :=
  ⟨{ unseededState with stream := [.store 0xFFFF 0x00] }, 0xFFFF, 0x00, [], by decide, rfl, 0, by decide⟩

theorem witness_OneMovePerStep :
    (∃ t, step (issuing (seededState 0xFF) 0x58000004FFFE) = .next t) ∧
    (∃ t, runSteps (issuing (seededState 0xFF) 0x58000004FFFE).stream.length (issuing (seededState 0xFF) 0x58000004FFFE) = .next t) ∧
    unseededState.stream = [] :=
  ⟨next_of_isNext (by decide), next_of_isNext (by decide), rfl⟩

theorem witness_EveryBufferHasOneMemory : cellsWf ([] : List Host.Cell) = true ∧ ∀ a : Addr, readCells [] a.toNat = 0x00 :=
  ⟨rfl, fun _ => rfl⟩

/-- The SEEDED and the UNSEEDED clause of AccbAddsImmediate and ValueRespondsAcc. -/
theorem witness_AccbAddsImmediate : (seededState 0xFF).seeded = true ∧ unseededState.seeded = false := by decide
theorem witness_ValueRespondsAcc : (seededState 0x00).seeded = true ∧ unseededState.seeded = false := by decide

/-- A sequence that ends at the last admitted address, of a launch memory that does not admit the next one. -/
theorem admitted_narrow : dataAdmitted narrowState 0x0100 (readCount ⟨true, 0x0100⟩ 2) := by
  show ∀ i < 2, _
  decide
theorem witness_AccbufAddsSequence : dataAdmitted narrowState (Handle.base ⟨true, 0x0100⟩) (readCount ⟨true, 0x0100⟩ 2) := admitted_narrow
theorem witness_CalcRespondsChecksum : dataAdmitted narrowState (Handle.base ⟨true, 0x0100⟩) (readCount ⟨true, 0x0100⟩ 2) := admitted_narrow
theorem witness_VerifyComparesChecksum : dataAdmitted narrowState (Handle.base ⟨true, 0x0100⟩) (readCount ⟨true, 0x0100⟩ 2) := admitted_narrow

/-- The third read of the sequence is the first one not admitted. -/
theorem witness_UnadmittedReadIsStuck : (2 : Nat) < (3 : Len).toNat ∧ dataAdmitted narrowState 0x0100 2 ∧
    narrowState.admitsAddr (BitVec.ofNat 16 (((0x0100 : Addr).toNat + 2) % 65536)) = false :=
  ⟨by decide, admitted_narrow, by decide⟩

theorem witness_CommandsAreTotal : unseededState.admits = .everywhere ∧ narrowState.admits ≠ .everywhere ∧
    (Handle.present ⟨false, 0x0200⟩ = false ∨ (5 : Len) = 0) ∧ (Handle.present ⟨true, 0x0200⟩ = false ∨ (0 : Len) = 0) := by decide

/-- A next state of each of the six commands, for the statements about a command that answers one. -/
theorem every_command_answers :
    (∃ t, exec .reset unseededState = .next t) ∧ (∃ t, exec (.accb 0x80) (seededState 0x80) = .next t) ∧
    (∃ t, exec (.accbuf ⟨true, 0xFFFE⟩ 4) (seededState 0xFF) = .next t) ∧ (∃ t, exec .value unseededState = .next t) ∧
    (∃ t, exec (.calculate ⟨true, 0xFFFE⟩ 4) unseededState = .next t) ∧
    (∃ t, exec (.verify ⟨false, 0xBEEF⟩ 65535 0xFF) unseededState = .next t) :=
  ⟨⟨_, rfl⟩, ⟨_, rfl⟩, next_of_isNext (by decide), ⟨_, rfl⟩, next_of_isNext (by decide), next_of_isNext (by decide)⟩

theorem witness_OnlyResetSeeds :
    (∃ t, exec .reset unseededState = .next t) ∧ (Instr.accb 0x80 ≠ .reset ∧ ∃ t, exec (.accb 0x80) (seededState 0x80) = .next t) ∧
    (∃ t, step (issuing unseededState 0x100000000000) = .next t) :=
  ⟨⟨_, rfl⟩, ⟨by decide, _, rfl⟩, next_of_isNext (by decide)⟩

theorem witness_AccWriters : ∃ t, exec (.accbuf ⟨true, 0x0100⟩ 3) (seededState 0xFF) = .next t ∧ t.acc ≠ (seededState 0xFF).acc :=
  ⟨_, rfl, by decide⟩

theorem witness_BlockNeverWritesMemory :
    (∃ t, exec (.accbuf ⟨true, 0x0100⟩ 3) (seededState 0xFF) = .next t) ∧
    (∃ t, step (issuing (seededState 0xFF) 0x380000030100) = .next t) ∧
    (∀ a b rest, (issuing (seededState 0xFF) 0x380000030100).stream ≠ .store a b :: rest) :=
  ⟨⟨_, rfl⟩, next_of_isNext (by decide), fun _ _ _ h => by cases h⟩

theorem witness_CommandFrames :
    (∃ t, exec .reset unseededState = .next t) ∧ (∃ t, exec (.accb 0x80) (seededState 0x80) = .next t) ∧
    (∃ t, exec (.accbuf ⟨true, 0xFFFE⟩ 4) (seededState 0xFF) = .next t) ∧ (∃ t, exec .value unseededState = .next t) ∧
    (∃ t, exec (.calculate ⟨true, 0xFFFE⟩ 4) unseededState = .next t) ∧
    (∃ t, exec (.verify ⟨false, 0xBEEF⟩ 65535 0xFF) unseededState = .next t) := every_command_answers

theorem witness_WhichCommandsRespond : ∃ t, exec (.verify ⟨false, 0xBEEF⟩ 65535 0xFF) unseededState = .next t :=
  every_command_answers.2.2.2.2.2

theorem witness_ExactReadsInOrder : ∃ t, exec (.accbuf ⟨true, 0xFFFE⟩ 4) (seededState 0xFF) = .next t := every_command_answers.2.2.1

/-- A memory that differs at 0x0103, just past the sequence. -/
theorem witness_OnlyReadBytesMatter : writeCells sampleMem 0x0103 0x09 ≠ (seededState 0xFF).mem ∧
    ∀ e ∈ commandReads (seededState 0xFF) (.accbuf ⟨true, 0x0100⟩ 3),
      readCells (writeCells sampleMem 0x0103 0x09) e.1.toNat = readCells (seededState 0xFF).mem e.1.toNat := by
  refine ⟨by decide, ?_⟩
  rw [show commandReads (seededState 0xFF) (.accbuf ⟨true, 0x0100⟩ 3) = [(0x0100, 0x01), (0x0101, 0x02), (0x0102, 0x03)] from rfl]
  simp [readCells, writeCells, consCell, sampleMem, unlistedByte, seededState, unseededState]

theorem witness_StatelessIgnoresAcc : (∃ t, exec (.calculate ⟨true, 0xFFFE⟩ 4) unseededState = .next t) ∧
    (∃ t, exec (.verify ⟨true, 0x0100⟩ 3 0x05) unseededState = .next t) :=
  ⟨next_of_isNext (by decide), next_of_isNext (by decide)⟩

theorem witness_UnseededAccIsUnobservable : hiddenAccOnly unseededState { unseededState with acc := 0xFF } ∧
    unseededState ≠ { unseededState with acc := 0xFF } := ⟨⟨rfl, fun h => by cases h⟩, by decide⟩

theorem witness_ClosedForm : unseededState.admits = .everywhere ∧
    Instr.reset ∉ [Instr.accb 0x01, .value, .accbuf ⟨true, 0xFFFE⟩ 4, .calculate ⟨false, 0⟩ 5] ∧
    (seededState 0x10).admits = .everywhere ∧ (seededState 0x10).seeded = true := by decide

theorem witness_CalcEqualsManualSequence : unseededState.admits = .everywhere ∧
    (∀ i ∈ [Instr.accb 0x01, .accbuf ⟨true, 0x0101⟩ 2], isAccumulate i = true) ∧
    [Instr.accb 0x01, .accbuf ⟨true, 0x0101⟩ 2].flatMap (addedBytes unseededState) =
      addedBytes unseededState (.accbuf ⟨true, 0x0100⟩ 3) := by decide

theorem witness_BatchInvariance : (seededState 0x05).admits = .everywhere ∧ (seededState 0x05).seeded = true ∧
    (∀ i ∈ [Instr.accb 0x01, .accbuf ⟨true, 0x0101⟩ 2], isAccumulate i = true) ∧
    (∀ i ∈ [Instr.accbuf ⟨true, 0x0100⟩ 3, .accbuf ⟨false, 0⟩ 9], isAccumulate i = true) ∧
    [Instr.accb 0x01, .accbuf ⟨true, 0x0101⟩ 2].flatMap (addedBytes (seededState 0x05)) =
      [Instr.accbuf ⟨true, 0x0100⟩ 3, .accbuf ⟨false, 0⟩ 9].flatMap (addedBytes (seededState 0x05)) := by decide

/-- Both clauses at the largest length, and parts that together are longer than one CALC. -/
theorem witness_SplitAccumulation : unseededState.admits = .everywhere ∧ 65535 + 0 ≤ 65535 ∧
    (∀ n ∈ [65535, 65535], n ≤ 65535) ∧ (∀ n ∈ [65534, 0, 1], n ≤ 65535) ∧ [65534, 0, 1].sum ≤ 65535 := by decide

theorem witness_NoDataAccumulatesNothing : (Handle.present ⟨false, 0xFFFF⟩ = false ∨ (65535 : Len) = 0) ∧
    (Handle.present ⟨true, 0xFFFF⟩ = false ∨ (0 : Len) = 0) := by decide

/-- 256 bytes 0x01 from 0x1000. -/
def onesMem : List Host.Cell := (List.range 256).map (fun i => (0x1000 + i, 0x01))

theorem witness_OverflowWraps : (seededState 0xFF).seeded = true ∧ (0x01 : Byte).toNat % 2 = 1 ∧ 0 < 256 ∧
    256 * (0x01 : Byte).toNat % 256 = 0 ∧ { unseededState with mem := onesMem }.admits = .everywhere ∧
    dataBytes { unseededState with mem := onesMem } 0x1000 256 = List.replicate 256 0x01 := by
  refine ⟨rfl, rfl, by decide, rfl, rfl, by decide +kernel⟩

theorem witness_ConcreteScenarios : unseededState.admits = .everywhere ∧
    dataBytes unseededState 0x0200 3 = [0x00, 0x00, 0x00] ∧ dataBytes unseededState 0x0100 3 = [0x01, 0x02, 0x03] := by decide

theorem witness_VerifyIsCalcCompared : ∃ t, exec (.calculate ⟨true, 0xFFFE⟩ 4) unseededState = .next t :=
  next_of_isNext (by decide)

/-- The bytes 30 40 and, in another memory, 40 30. -/
theorem witness_OrderIndependence : unseededState.admits = .everywhere ∧ (seededState 0x05).admits = .everywhere ∧
    (addedBytes (seededState 0x05) (.accbuf ⟨true, 0x0000⟩ 2)).Perm
      (addedBytes { seededState 0x05 with mem := [(0x0300, 0x40), (0x0301, 0x30)] } (.accbuf ⟨true, 0x0300⟩ 2)) ∧
    (seededState 0x05).seeded = true := ⟨rfl, rfl, by decide, rfl⟩

/-- 01 (80 80) 02 against 01 02. -/
theorem witness_NeutralSubsequence : byteSum [0x80, 0x80] % 256 = 0 ∧
    addedBytes { unseededState with mem := [(0x10, 0x01), (0x11, 0x80), (0x12, 0x80), (0x13, 0x02)] } (.accbuf ⟨true, 0x10⟩ 4) =
      [0x01] ++ [0x80, 0x80] ++ [0x02] ∧
    addedBytes unseededState (.accbuf ⟨true, 0x0100⟩ 2) = [0x01] ++ [0x02] := by decide

/-- The last byte of a sequence that wraps changes, and then the first by the opposite amount. -/
theorem witness_SingleChangeIsDetected : unseededState.admits = .everywhere ∧ cellsWf unseededState.mem = true ∧
    3 < (4 : Len).toNat ∧ (0x41 : Byte) ≠ memRead unseededState (BitVec.ofNat 16 (((0xFFFE : Addr).toNat + 3) % 65536)) ∧
    0 < (4 : Len).toNat ∧ 0 ≠ 3 ∧
    (0x41 : Byte) - memRead unseededState (BitVec.ofNat 16 (((0xFFFE : Addr).toNat + 3) % 65536)) +
      (0x0F - memRead unseededState (BitVec.ofNat 16 (((0xFFFE : Addr).toNat + 0) % 65536))) = 0 := by decide

theorem witness_InitialValueChecksums : unseededState.admits = .everywhere := rfl

theorem witness_NotACrc : ∃ s : State, s.admits = .everywhere ∧
    dataBytes s 0x0300 9 = [0x31, 0x32, 0x33, 0x34, 0x35, 0x36, 0x37, 0x38, 0x39] :=
  ⟨{ unseededState with mem := (List.range 9).map (fun i => (0x0300 + i, BitVec.ofNat 8 (0x31 + i))) }, rfl, by decide⟩

theorem witness_StepKeepsInvariant : (issuing (seededState 0xFF) 0x680500030100).inv = true ∧
    ∃ t, step (issuing (seededState 0xFF) 0x680500030100) = .next t := ⟨by decide, next_of_isNext (by decide)⟩

end Sys2Proof.Tests
end

section
/-! The step at an issued command word (R11, R75). -/

namespace Sys2Proof.Proofs
open Sys2Proof Sys2Proof.Machine

/-- Taking the head move leaves exactly the rest of the stream, and nothing else changes. -/
theorem dropMove_of_stream_cons {s : State} {m : HostMove} {rest : List HostMove} (hs : s.stream = m :: rest) :
    dropMove s = { s with stream := rest } := by
  rw [dropMove, hs, List.tail_cons]

theorem step_issue_command {s : State} {w : CmdWord} {rest : List HostMove} {i : Instr}
    (hs : s.stream = .issue w :: rest) (hw : decode w = .command i) : step s = exec i (dropMove s) := by
  simp only [step, hs, hw]

/-- Settles O7: the step at a decodable word is `exec` after the head move is taken. -/
theorem stepRunsDecodedCommand : Obligations.StepRunsDecodedCommand := by
  intro s w rest i hs hw
  calc step s = exec i (dropMove s) := step_issue_command hs hw
    _ = exec i { s with stream := rest } := by rw [dropMove_of_stream_cons hs]

end Sys2Proof.Proofs
end

section
/-! What each command and each step does to SEEDED and to ACC (R23, R25). -/

namespace Sys2Proof.Proofs
open Sys2Proof Sys2Proof.Machine

theorem commandIf_eq_command {u : Bool} {i j : Instr} : commandIf u i = .command j ↔ u = true ∧ i = j := by
  cases u <;> simp [commandIf]

theorem unusedN_iff {w : CmdWord} :
    unusedN w = true ↔ fieldP w = false ∧ fieldImm8 w = 0 ∧ fieldLen w = 0 ∧ fieldBase w = 0 := by
  simp [unusedN, and_assoc]

/-- Only one word is RESET's: no other opcode's arm answers it, and format N leaves no field free (R67, R70). -/
theorem decode_eq_reset_iff {w : CmdWord} : decode w = .command .reset ↔ w = 0x100000000000 := by
  constructor
  · intro hw
    obtain ⟨hz, hop, hu⟩ : fieldZ w = 0 ∧ fieldOp w = 0x1 ∧ unusedN w = true := by
      unfold decode at hw
      split_ifs at hw <;> simp_all [commandIf_eq_command]
    obtain ⟨hp, himm, hlen, hbase⟩ := unusedN_iff.mp hu
    calc w = fieldsWord 0x1 false 0 0 0 0 := by
          rw [← fieldsWord_fields w, hop, hp, hz, himm, hlen, hbase]
      _ = 0x100000000000 := by decide
  · rintro rfl
    decide

theorem exec_seeded {i : Instr} {s t : State} (hi : i ≠ .reset) (ht : exec i s = .next t) : t.seeded = s.seeded := by
  obtain ⟨rfl, -⟩ | ⟨b, -, rfl⟩ | ⟨h, len, -, -, rfl⟩ | ⟨-, rfl⟩ | ⟨h, len, -, -, rfl⟩ | ⟨h, len, e, -, -, rfl⟩ :=
    exec_next_cases ht
  · exact absurd rfl hi
  all_goals rfl

theorem exec_reset_seeded {s t : State} (ht : exec .reset s = .next t) : t.seeded = true := by
  obtain rfl : seed s = t := Host.Outcome.next.inj ht
  rfl

theorem step_seeded_iff {s t : State} (ht : step s = .next t) :
    t.seeded = true ↔ s.seeded = true ∨ ∃ rest, s.stream = .issue 0x100000000000 :: rest := by
  obtain ⟨hs, rfl⟩ | ⟨a, b, rest, hs, rfl⟩ | ⟨w, rest, i, hs, hw, he⟩ := step_next_cases ht
  · simp [hs]
  · simp [hs]
  · have hreset : (∃ rest, s.stream = .issue 0x100000000000 :: rest) ↔ i = .reset := by
      simp only [hs, List.cons.injEq, HostMove.issue.injEq, exists_and_left, exists_eq', and_true,
        ← decode_eq_reset_iff, hw, Decoded.command.injEq]
    rw [hreset]
    by_cases hi : i = .reset
    · subst hi
      simp [exec_reset_seeded he]
    · simp [exec_seeded hi he, hi]

/-- Settles O22: SEEDED's transitions command by command, and over a step, where RESET has only one word. -/
theorem onlyResetSeeds : Obligations.OnlyResetSeeds :=
  ⟨rfl, fun _ _ => exec_reset_seeded, fun _ _ _ => exec_seeded, fun _ _ => step_seeded_iff⟩

theorem readCount_eq_zero_iff {h : Handle} {len : Len} : readCount h len = 0 ↔ h.present = false ∨ len = 0 := by
  cases hp : h.present <;> simp [readCount, hp, BitVec.toNat_eq]

/-- Settles O23: an accumulate while UNSEEDED and the empty sequence leave ACC as it is, and so do VALUE, CALC and VERIFY. -/
theorem accWriters : Obligations.AccWriters := by
  intro i s t ht hne
  obtain ⟨rfl, -⟩ | ⟨b, rfl, rfl⟩ | ⟨h, len, rfl, -, rfl⟩ | ⟨-, rfl⟩ | ⟨h, len, -, -, rfl⟩ | ⟨h, len, e, -, -, rfl⟩ :=
    exec_next_cases ht
  case inl => exact .inl rfl
  case inr.inl =>
    have hs : s.seeded = true := Bool.of_not_eq_false fun hs => hne (by simp [hs])
    exact .inr (.inl ⟨b, rfl, hs⟩)
  case inr.inr.inl =>
    have hs : s.seeded = true := Bool.of_not_eq_false fun hs => hne (by simp [hs])
    have hc : readCount h len ≠ 0 := fun hc => hne (by simp [hc])
    rw [Ne, readCount_eq_zero_iff, not_or, Bool.not_eq_false] at hc
    obtain ⟨hp, hlen⟩ := hc
    exact .inr (.inr ⟨h, len, rfl, hp, hlen, hs⟩)
  all_goals exact absurd rfl hne

end Sys2Proof.Proofs
end

section
/-! Two runs that differ in ACC's field alone, while UNSEEDED (R24): every operation keeps the relation, hence every step. -/

namespace Sys2Proof.Proofs
open Sys2Proof Sys2Proof.Machine

theorem hiddenAccOnly_refl (s : State) : hiddenAccOnly s s := ⟨rfl, fun _ => rfl⟩

/-- Related states are equal, or UNSEEDED and one is the other with another value in ACC's field. -/
theorem hiddenAccOnly_cases {s t : State} (hst : hiddenAccOnly s t) :
    t = s ∨ s.seeded = false ∧ ∃ a, t = { s with acc := a } := by
  obtain ⟨ht, hacc⟩ := hst
  by_cases hs : s.seeded = true
  · exact .inl (by rw [ht, hacc hs])
  · exact .inr ⟨Bool.eq_false_iff.mpr hs, t.acc, ht⟩

/-- An operation keeps the relation when it leaves SEEDED alone and, while UNSEEDED, passes ACC's field on untouched. -/
theorem hiddenAccOnly_map {f : State → State} (hseeded : ∀ s, (f s).seeded = s.seeded)
    (hacc : ∀ s a, s.seeded = false → f { s with acc := a } = { f s with acc := a })
    {s t : State} (hst : hiddenAccOnly s t) : hiddenAccOnly (f s) (f t) := by
  obtain rfl | ⟨hs, a, rfl⟩ := hiddenAccOnly_cases hst
  · exact hiddenAccOnly_refl _
  · rw [hacc s a hs]
    exact ⟨rfl, fun h => absurd ((hseeded s).symm.trans h) (by simp [hs])⟩

section
variable {s t : State} (hst : hiddenAccOnly s t)
include hst

theorem hiddenAccOnly_stream : t.stream = s.stream := by rw [hst.1]

theorem hiddenAccOnly_admits : t.admits = s.admits := by rw [hst.1]

theorem hiddenAccOnly_seqBytes (h : Handle) (len : Len) : seqBytes t h len = seqBytes s h len := by
  rw [hst.1]
  rfl

/-- A read-out shows ACC only while SEEDED, and then the two agree on it. -/
theorem hiddenAccOnly_readOut : readOut t = readOut s := by
  obtain rfl | ⟨hs, a, rfl⟩ := hiddenAccOnly_cases hst
  · rfl
  · simp [readOut, hs]

theorem hiddenAccOnly_seed : seed t = seed s := by
  rw [hst.1]
  rfl

theorem hiddenAccOnly_dropMove : hiddenAccOnly (dropMove s) (dropMove t) :=
  hiddenAccOnly_map dropMove_seeded (fun _ _ _ => rfl) hst

theorem hiddenAccOnly_hostStore (a : Addr) (b : Byte) : hiddenAccOnly (hostStore a b s) (hostStore a b t) :=
  hiddenAccOnly_map (hostStore_seeded · a b) (fun _ _ _ => rfl) hst

theorem hiddenAccOnly_recordReads (h : Handle) (len : Len) : hiddenAccOnly (recordReads s h len) (recordReads t h len) :=
  hiddenAccOnly_map (recordReads_seeded · h len) (fun _ _ _ => rfl) hst

theorem hiddenAccOnly_afterReadOut : hiddenAccOnly (afterReadOut s) (afterReadOut t) :=
  hiddenAccOnly_map afterReadOut_seeded (fun _ _ _ => rfl) hst

theorem hiddenAccOnly_respond (k : Bool) (v : Byte) : hiddenAccOnly (respond k v s) (respond k v t) :=
  hiddenAccOnly_map (respond_seeded · k v) (fun _ _ _ => rfl) hst

theorem hiddenAccOnly_accumulateByte (b : Byte) : hiddenAccOnly (accumulateByte s b) (accumulateByte t b) :=
  hiddenAccOnly_map (accumulateByte_seeded · b) (fun _ _ hs => by simp [accumulateByte, hs]) hst

theorem hiddenAccOnly_accumulateBytes (bs : List Byte) : hiddenAccOnly (accumulateBytes s bs) (accumulateBytes t bs) :=
  hiddenAccOnly_map (accumulateBytes_seeded · bs) (fun _ _ hs => by simp [accumulateBytes_eq, hs]) hst

/-- Both runs are admitted or stuck alike, and go on with the same bytes. -/
theorem readSequence_agree (h : Handle) (len : Len) {k : List Byte → State → Result}
    (hk : ∀ bs {s t}, hiddenAccOnly s t → outcomesAgree hiddenAccOnly (k bs s) (k bs t)) :
    outcomesAgree hiddenAccOnly (readSequence h len s k) (readSequence h len t k) := by
  unfold readSequence
  rw [hiddenAccOnly_admits hst, hiddenAccOnly_seqBytes hst]
  cases firstUnadmitted s.admits (readAddrs h len) with
  | none => exact hk _ (hiddenAccOnly_recordReads hst h len)
  | some a => exact rfl

theorem exec_agree (i : Instr) : outcomesAgree hiddenAccOnly (exec i s) (exec i t) := by
  cases i with
  | reset =>
    show hiddenAccOnly (seed s) (seed t)
    rw [hiddenAccOnly_seed hst]
    exact hiddenAccOnly_refl _
  | accb imm => exact hiddenAccOnly_accumulateByte hst imm
  | accbuf h len =>
    simp only [exec, execAccbuf]
    exact readSequence_agree hst h len fun bs _ _ hrec => hiddenAccOnly_accumulateBytes hrec bs
  | value =>
    show hiddenAccOnly (respondByte (readOut s) (afterReadOut s)) (respondByte (readOut t) (afterReadOut t))
    rw [hiddenAccOnly_readOut hst]
    exact hiddenAccOnly_respond (hiddenAccOnly_afterReadOut hst) false _
  | calculate h len =>
    simp only [exec, execCalc]
    exact readSequence_agree hst h len fun bs _ _ hrec => hiddenAccOnly_respond hrec false _
  | verify h len e =>
    simp only [exec, execVerify]
    exact readSequence_agree hst h len fun bs _ _ hrec => hiddenAccOnly_respond hrec true _

theorem step_agree : outcomesAgree hiddenAccOnly (step s) (step t) := by
  have hdrop := hiddenAccOnly_dropMove hst
  unfold step
  rw [hiddenAccOnly_stream hst]
  rcases s.stream with _ | ⟨⟨w⟩ | ⟨a, b⟩, rest⟩
  · exact hst
  · cases hw : decode w with
    | command i => simpa only [hw] using exec_agree hdrop i
    | reserved why => simp only [hw]; exact rfl
  · exact hiddenAccOnly_hostStore hdrop a b

end

/-- Outcomes that agree go on to outcomes that agree. -/
theorem outcomesAgree_andThen {R R' : State → State → Prop} {r r' : Result} {k k' : State → Result}
    (hr : outcomesAgree R r r') (hk : ∀ {s t}, R s t → outcomesAgree R' (k s) (k' t)) :
    outcomesAgree R' (andThen r k) (andThen r' k') := by
  cases r with
  | next s =>
    cases r' with
    | next t => exact hk hr
    | fault f => cases f
    | refused f => exact False.elim hr
  | fault f => cases f
  | refused f =>
    cases r' with
    | next t => exact False.elim hr
    | fault g => cases g
    | refused g => exact hr

/-- Settles O30, by induction on the number of steps: one step keeps the relation, and stops both runs alike. -/
theorem unseededAccIsUnobservable : Obligations.UnseededAccIsUnobservable := by
  intro k
  induction k with
  | zero => exact fun s t hst => hst
  | succ k ih => exact fun s t hst => outcomesAgree_andThen (step_agree hst) (ih _ _)

end Sys2Proof.Proofs
end

section
/-! The buffer memory as the host's: a store is observed where it was made, and every contents has one canonical memory
(R50, R54, R172). -/

namespace Sys2Proof.Proofs
open Sys2Proof Sys2Proof.Machine

theorem step_store {s : State} {a : Addr} {b : Byte} {rest : List HostMove} (hs : s.stream = .store a b :: rest) :
    step s = .next (hostStore a b (dropMove s)) := by
  simp only [step, hs]

/-- In a canonical memory the byte stored is read back, and every other address reads as before. -/
theorem memRead_hostStore {s : State} (hw : cellsWf s.mem = true) (a a' : Addr) (b : Byte) :
    memRead (hostStore a b s) a' = if a' = a then b else memRead s a' := by
  simp only [memRead, hostStore_mem, readCells_writeCells hw, BitVec.toNat_inj]

/-- Settles O9: the store's step is `hostStore` after the head move is taken, and the store law of the cells. -/
theorem hostStoreIsObserved : Obligations.HostStoreIsObserved := by
  intro s a b rest hw hs
  have hread (a' : Addr) : memRead (hostStore a b (dropMove s)) a' = if a' = a then b else memRead s a' :=
    memRead_hostStore (s := dropMove s) hw a a' b
  refine ⟨hostStore a b (dropMove s), step_store hs, ?_, fun a' hne => ?_, ?_⟩
  · rw [hread, if_pos rfl]
  · rw [hread, if_neg hne]
  · rw [dropMove_of_stream_cons hs]
    rfl

/-- The memory after the host has stored `f`'s byte at each of the addresses, the last of them first, in a buffer that
lists nothing. -/
def memoryOf (f : Addr → Byte) : List Addr → List Host.Cell
  | [] => []
  | a :: as => writeCells (memoryOf f as) a.toNat (f a)

theorem memoryOf_wf (f : Addr → Byte) (as : List Addr) : cellsWf (memoryOf f as) = true := by
  induction as with
  | nil => exact cellsWf_nil
  | cons a as ih => exact cellsWf_writeCells a (f a) ih

theorem readCells_memoryOf (f : Addr → Byte) {as : List Addr} {a : Addr} (ha : a ∈ as) :
    readCells (memoryOf f as) a.toNat = f a := by
  induction as with
  | nil => cases ha
  | cons c as ih =>
    rw [memoryOf, readCells_writeCells (memoryOf_wf f as)]
    by_cases hac : a = c
    · rw [if_pos (congrArg _ hac), hac]
    · rw [if_neg (mt BitVec.eq_of_toNat_eq hac), ih ((List.mem_cons.mp ha).resolve_left hac)]

/-- Canonical cells list no address outside the buffer space (R40). -/
theorem readCells_outside {lo n : Nat} {m : List Host.Cell} (hw : cellsFrom lo m = true) (hn : 2 ^ 16 ≤ n) :
    readCells m n = unlistedByte := by
  induction m generalizing lo with
  | nil => rfl
  | cons c m ih =>
    obtain ⟨k, v⟩ := c
    simp only [cellsFrom, Bool.and_eq_true, decide_eq_true_eq] at hw
    obtain ⟨⟨⟨-, hk⟩, -⟩, hm⟩ := hw
    rw [readCells, if_neg (by omega)]
    exact ih hm

/-- Canonical memories are equal when they agree on the buffer space. -/
theorem cellsWf_ext {m m' : List Host.Cell} (hw : cellsWf m = true) (hw' : cellsWf m' = true)
    (h : ∀ a : Addr, readCells m a.toNat = readCells m' a.toNat) : m = m' := by
  refine cells_ext_from hw hw' fun n => ?_
  by_cases hn : n < 2 ^ 16
  · have hread := h (BitVec.ofNat 16 n)
    rwa [BitVec.toNat_ofNat, Nat.mod_eq_of_lt hn] at hread
  · rw [readCells_outside hw (by omega), readCells_outside hw' (by omega)]

/-- Settles O12: the host's stores at all addresses make the memory, and canonical memories that read alike are equal. -/
theorem everyBufferHasOneMemory : Obligations.EveryBufferHasOneMemory := by
  intro f
  have hread (a : Addr) : readCells (memoryOf f Finset.univ.toList) a.toNat = f a :=
    readCells_memoryOf f (Finset.mem_toList.mpr (Finset.mem_univ a))
  have hwf := memoryOf_wf f Finset.univ.toList
  exact ⟨_, ⟨hwf, hread⟩, fun m' hw' hread' => cellsWf_ext hw' hwf fun a => (hread' a).trans (hread a).symm⟩

end Sys2Proof.Proofs
end

section
/-! The block only reads memory: it writes none of it (R42), reads exactly its sequence (R46, R48), stops at the first
address not admitted (R50), and depends on no other byte (R134). -/

namespace Sys2Proof.Proofs
open Sys2Proof Sys2Proof.Machine

theorem exec_mem {i : Instr} {s t : State} (ht : exec i s = .next t) : t.mem = s.mem := by
  obtain ⟨-, rfl⟩ | ⟨b, -, rfl⟩ | ⟨h, len, -, -, rfl⟩ | ⟨-, rfl⟩ | ⟨h, len, -, -, rfl⟩ | ⟨h, len, e, -, -, rfl⟩ :=
    exec_next_cases ht
  all_goals rfl

/-- Settles O24: no command has a write of memory, and a step beside the host's store is idle or one command. -/
theorem blockNeverWritesMemory : Obligations.BlockNeverWritesMemory := by
  constructor
  · intro i s t ht a
    rw [memRead, memRead, exec_mem ht]
  · intro s t ht hstore
    obtain ⟨-, rfl⟩ | ⟨a, b, rest, hs, -⟩ | ⟨w, rest, i, -, -, he⟩ := step_next_cases ht
    · rfl
    · exact absurd hs (hstore a b rest)
    · exact (exec_mem he).trans (dropMove_mem s)

/-- A command that answers has made its reads, and no others. -/
theorem exec_reads {i : Instr} {s t : State} (ht : exec i s = .next t) : t.reads = s.reads ++ commandReads s i := by
  obtain ⟨rfl, rfl⟩ | ⟨b, rfl, rfl⟩ | ⟨h, len, rfl, -, rfl⟩ | ⟨rfl, rfl⟩ | ⟨h, len, rfl, -, rfl⟩ |
    ⟨h, len, e, rfl, -, rfl⟩ := exec_next_cases ht
  all_goals simp [commandReads]

/-- The events of a sequence in the memory's own accessor. -/
theorem dataReads_eq_memRead (s : State) (base : Addr) (n : Nat) :
    dataReads s base n = (List.range n).map (fun k =>
      (BitVec.ofNat 16 ((base.toNat + k) % 2 ^ 16), memRead s (BitVec.ofNat 16 ((base.toNat + k) % 2 ^ 16)))) := by
  simp [dataReads, memRead]

/-- Settles O27: the command's reads, spelled event by event. -/
theorem exactReadsInOrder : Obligations.ExactReadsInOrder := by
  intro i s t ht
  rw [exec_reads ht]
  cases i with
  | reset | accb | value => rfl
  | accbuf h len | calculate h len | verify h len _ => exact congrArg _ (dataReads_eq_memRead s h.base (readCount h len))

theorem firstUnadmitted_eq_find? (s : State) (as : List Addr) :
    firstUnadmitted s.admits as = as.find? (fun a => !s.admitsAddr a) := by
  unfold firstUnadmitted State.admitsAddr
  cases s.admits with
  | everywhere => exact (List.find?_eq_none.mpr (by simp)).symm
  | only declared => rfl

/-- The first unadmitted address of a sequence is the one that follows an admitted part. -/
theorem firstUnadmitted_eq_some {s : State} {h : Handle} {len : Len} {j : Nat} (hj : j < readCount h len)
    (ha : dataAdmitted s h.base j) (hn : s.admitsAddr (BitVec.ofNat 16 ((h.base.toNat + j) % 65536)) = false) :
    firstUnadmitted s.admits (readAddrs h len) = some (BitVec.ofNat 16 ((h.base.toNat + j) % 65536)) := by
  have hfind : (List.range (readCount h len)).find? (fun i => !s.admitsAddr (effectiveAddr h.base i)) = some j := by
    simp only [List.find?_range_eq_some, effectiveAddr_eq_ofNat, List.mem_range, Bool.not_not]
    exact ⟨by rw [hn]; rfl, hj, ha⟩
  rw [firstUnadmitted_eq_find?, readAddrs, List.find?_map, Function.comp_def, hfind, Option.map_some,
    effectiveAddr_eq_ofNat]

theorem readSequence_stuck {s : State} {h : Handle} {len : Len} {a : Addr} (k : List Byte → State → Result)
    (hf : firstUnadmitted s.admits (readAddrs h len) = some a) : readSequence h len s k = .refused (.stuckRead a) := by
  rw [readSequence, hf]

/-- Settles O20: each of the three begins with the reads of its sequence, which stop at the first unadmitted address. -/
theorem unadmittedReadIsStuck : Obligations.UnadmittedReadIsStuck := by
  intro base len e s j hj ha hn
  have hf := firstUnadmitted_eq_some (h := ⟨true, base⟩) (len := len) hj ha hn
  simp only [exec, execAccbuf, execCalc, execVerify, readSequence_stuck _ hf, and_self]

theorem seqBytes_eq_map_seqReads (s : State) (h : Handle) (len : Len) :
    seqBytes s h len = (seqReads s h len).map Prod.snd := by
  simp [seqBytes, seqReads, Function.comp_def]

section
variable {s : State} {m : List Host.Cell} {h : Handle} {len : Len}

/-- The events of a sequence are the same over a memory that agrees on the addresses they name. -/
theorem seqReads_withMem (hm : ∀ e ∈ seqReads s h len, readCells m e.1.toNat = readCells s.mem e.1.toNat) :
    seqReads { s with mem := m } h len = seqReads s h len := by
  refine List.map_congr_left fun a ha => ?_
  exact congrArg (Prod.mk a) (hm _ (List.mem_map_of_mem ha))

/-- The reads over such a memory are admitted or stuck alike; so if what follows only passes the memory on, the outcome
is the same but for the memory. -/
theorem readSequence_withMem {k : List Byte → State → Result}
    (hm : ∀ e ∈ dataReads s h.base (readCount h len), readCells m e.1.toNat = readCells s.mem e.1.toNat)
    (hk : ∀ bs t, k bs { t with mem := m } = mapNext (fun t => { t with mem := m }) (k bs t)) :
    readSequence h len { s with mem := m } k = mapNext (fun t => { t with mem := m }) (readSequence h len s k) := by
  have hreads : seqReads { s with mem := m } h len = seqReads s h len :=
    seqReads_withMem (by rwa [seqReads_eq])
  have hbytes : seqBytes { s with mem := m } h len = seqBytes s h len := by
    rw [seqBytes_eq_map_seqReads, hreads, seqBytes_eq_map_seqReads]
  unfold readSequence
  cases firstUnadmitted s.admits (readAddrs h len) with
  | none =>
    simp only [hbytes, recordReads, hreads]
    exact hk _ (recordReads s h len)
  | some a => rfl

end

/-- Settles O28: the three bulk commands by their reads, and the others touch no memory at all. -/
theorem onlyReadBytesMatter : Obligations.OnlyReadBytesMatter := by
  intro i s m hm
  cases i with
  | reset | accb | value => rfl
  | accbuf h len =>
    simp only [exec, execAccbuf]
    exact readSequence_withMem hm fun bs t => by simp only [accumulateBytes_eq]; rfl
  | calculate h len =>
    simp only [exec, execCalc]
    exact readSequence_withMem hm fun _ _ => rfl
  | verify h len e =>
    simp only [exec, execVerify]
    exact readSequence_withMem hm fun _ _ => rfl

end Sys2Proof.Proofs
end

section
/-! The command word and its commands (R70, R71, R72): the words that decode are exactly the layouts of the commands, so
decoding and encoding are inverse up to an ignored BASE, and the command words are counted. -/

namespace Sys2Proof.Proofs
open Sys2Proof Sys2Proof.Machine

/-! ### Decoding -/

/-- R70's listing read backwards: what a word that is a command has in its fields. -/
theorem decode_eq_command_cases {w : CmdWord} {i : Instr} :
    decode w = .command i ↔ fieldZ w = 0 ∧
      (fieldOp w = 0x1 ∧ unusedN w = true ∧ .reset = i ∨
        fieldOp w = 0x2 ∧ unusedI w = true ∧ .accb (fieldImm8 w) = i ∨
        fieldOp w = 0x3 ∧ unusedB w = true ∧ .accbuf (fieldHandle w) (fieldLen w) = i ∨
        fieldOp w = 0x4 ∧ unusedN w = true ∧ .value = i ∨
        fieldOp w = 0x5 ∧ unusedB w = true ∧ .calculate (fieldHandle w) (fieldLen w) = i ∨
        fieldOp w = 0x6 ∧ .verify (fieldHandle w) (fieldLen w) (fieldImm8 w) = i) := by
  unfold decode
  split_ifs <;> simp_all [commandIf_eq_command]

theorem unusedI_iff {w : CmdWord} : unusedI w = true ↔ fieldP w = false ∧ fieldLen w = 0 ∧ fieldBase w = 0 := by
  simp [unusedI, and_assoc]

theorem unusedB_iff {w : CmdWord} : unusedB w = true ↔ fieldImm8 w = 0 := by
  simp [unusedB]

/-- A command laid out by R61 with its BASE as it stands, ignored or not: `encode` without the normalisation of R66. -/
def carriedWord : Instr → CmdWord
  | .reset => packWord 0x1 false 0 0 0
  | .accb imm => packWord 0x2 false imm 0 0
  | .accbuf h len => packWord 0x3 h.present 0 len h.base
  | .value => packWord 0x4 false 0 0 0
  | .calculate h len => packWord 0x5 h.present 0 len h.base
  | .verify h len e => packWord 0x6 h.present e len h.base

theorem decode_carriedWord (i : Instr) : decode (carriedWord i) = .command i := by
  rw [decode_eq_command_cases]
  cases i <;> simp [carriedWord, packWord_eq, unusedN_iff, unusedI_iff, unusedB_iff, fieldHandle]

/-- A word is a command exactly when it is that command's layout. -/
theorem decode_eq_command_iff {w : CmdWord} {i : Instr} : decode w = .command i ↔ w = carriedWord i := by
  refine ⟨fun hw => ?_, fun hw => hw ▸ decode_carriedWord i⟩
  obtain ⟨hz, hcases⟩ := decode_eq_command_cases.mp hw
  rw [← fieldsWord_fields w, hz]
  obtain ⟨hop, hu, rfl⟩ | ⟨hop, hu, rfl⟩ | ⟨hop, hu, rfl⟩ | ⟨hop, hu, rfl⟩ | ⟨hop, hu, rfl⟩ | ⟨hop, rfl⟩ := hcases <;>
    rw [hop]
  case inl | inr.inr.inr.inl =>
    obtain ⟨hp, himm, hlen, hbase⟩ := unusedN_iff.mp hu
    rw [hp, himm, hlen, hbase]
    rfl
  case inr.inl =>
    obtain ⟨hp, hlen, hbase⟩ := unusedI_iff.mp hu
    rw [hp, hlen, hbase]
    rfl
  case inr.inr.inl | inr.inr.inr.inr.inl =>
    rw [unusedB_iff.mp hu]
    rfl
  case inr.inr.inr.inr.inr => rfl

/-! ### Encoding and decoding are inverse (R71) -/

theorem packWord_toNat (op : BitVec 4) (p : Bool) (imm : Byte) (len : Len) (base : Addr) :
    (packWord op p imm len base).toNat =
      op.toNat * 2 ^ 44 + p.toNat * 2 ^ 43 + imm.toNat * 2 ^ 32 + len.toNat * 2 ^ 16 + base.toNat := by
  simp [packWord_eq, fieldsWord_toNat]

theorem canonical_present (h : Handle) : h.canonical.present = h.present := by
  obtain ⟨_ | _, base⟩ := h <;> rfl

theorem canonical_base (h : Handle) : h.canonical.base = h.baseField := by
  obtain ⟨_ | _, base⟩ := h <;> rfl

theorem encode_eq_carriedWord (i : Instr) : encode i = carriedWord i.canonical := by
  cases i <;> simp [encode, carriedWord, Instr.canonical, canonical_present, canonical_base]

theorem decode_encode (i : Instr) : decode (encode i) = .command i.canonical := by
  rw [encode_eq_carriedWord, decode_carriedWord]

theorem canonical_of_handle_wf {h : Handle} (hw : h.wf = true) : h.canonical = h := by
  obtain ⟨_ | _, base⟩ := h
  · obtain rfl : base = 0 := by simpa [Handle.wf] using hw
    rfl
  · rfl

theorem canonical_of_wf {i : Instr} (hw : i.wf = true) : i.canonical = i := by
  cases i with
  | reset | accb | value => rfl
  | accbuf h len | calculate h len | verify h len e => simp [Instr.canonical, canonical_of_handle_wf hw]

/-- The mask that clears BASE and keeps every other field. -/
theorem clearBase_fieldsWord (op : BitVec 4) (p : Bool) (z : BitVec 3) (imm : Byte) (len : Len) (base : Addr) :
    fieldsWord op p z imm len base &&& 0xFFFFFFFF0000 = fieldsWord op p z imm len 0 := by
  have hmask : (0xFFFFFFFF0000 : CmdWord) = fieldsWord 0xF true 0x7 0xFF 0xFFFF 0 := by decide
  rw [hmask, fieldsWord_and, fieldsWord_inj]
  exact ⟨BitVec.and_allOnes, Bool.and_true p, BitVec.and_allOnes, BitVec.and_allOnes, BitVec.and_allOnes,
    BitVec.and_zero⟩

/-- Normalising a handle's BASE field is clearing BASE unless P = 1 (R66). -/
theorem packWord_baseField (op : BitVec 4) (imm : Byte) (len : Len) (h : Handle) :
    packWord op h.present imm len h.baseField =
      if fieldP (packWord op h.present imm len h.base) = true then packWord op h.present imm len h.base
      else packWord op h.present imm len h.base &&& 0xFFFFFFFF0000 := by
  simp only [packWord_eq, fieldP_fieldsWord, clearBase_fieldsWord, Handle.baseField]
  split_ifs <;> rfl

theorem encode_eq_clearBase (i : Instr) :
    encode i = if fieldP (carriedWord i) = true then carriedWord i else carriedWord i &&& 0xFFFFFFFF0000 := by
  cases i with
  | reset | value => decide
  | accb b => exact packWord_baseField 0x2 b 0 ⟨false, 0⟩
  | accbuf h len => exact packWord_baseField 0x3 0 len h
  | calculate h len => exact packWord_baseField 0x5 0 len h
  | verify h len e => exact packWord_baseField 0x6 e len h

/-- Encoding undoes decoding, but that a BASE ignored under P = 0 is cleared. -/
theorem encode_of_decode {w : CmdWord} {i : Instr} (hw : decode w = .command i) :
    encode i = if w.getLsbD 43 = true then w else w &&& 0xFFFFFFFF0000 := by
  rw [decode_eq_command_iff.mp hw]
  exact encode_eq_clearBase i

/-- A word of an opcode whose commands take a handle, by the two forms R71 writes out. -/
theorem packWord_handle_toNat (op : BitVec 4) (imm : Byte) (len : Len) (h : Handle) :
    (packWord op h.present imm len h.baseField).toNat =
      (if h.present then op.toNat * 2 ^ 44 + 2 ^ 43 + h.base.toNat else op.toNat * 2 ^ 44) +
        imm.toNat * 2 ^ 32 + len.toNat * 2 ^ 16 := by
  obtain ⟨_ | _, base⟩ := h
  · simp [packWord_toNat, Handle.baseField]
  · simp [packWord_toNat, Handle.baseField]
    omega

theorem encode_accb_toNat (b : Byte) : (encode (.accb b)).toNat = 0x200000000000 + b.toNat * 2 ^ 32 := by
  simp [encode, packWord_toNat]

theorem encode_accbuf_toNat (h : Handle) (len : Len) : (encode (.accbuf h len)).toNat =
    (if h.present then 0x380000000000 + h.base.toNat else 0x300000000000) + len.toNat * 2 ^ 16 := by
  simp [encode, packWord_handle_toNat]

theorem encode_calculate_toNat (h : Handle) (len : Len) : (encode (.calculate h len)).toNat =
    (if h.present then 0x580000000000 + h.base.toNat else 0x500000000000) + len.toNat * 2 ^ 16 := by
  simp [encode, packWord_handle_toNat]

theorem encode_verify_toNat (h : Handle) (len : Len) (e : Byte) : (encode (.verify h len e)).toNat =
    (if h.present then 0x680000000000 + h.base.toNat else 0x600000000000) + e.toNat * 2 ^ 32 + len.toNat * 2 ^ 16 := by
  simp [encode, packWord_handle_toNat]

/-- Settles O2: the nine layouts, and both inverses through the layout that carries BASE, which is what decodes. -/
theorem encodeDecodeInverse : Obligations.EncodeDecodeInverse := by
  refine ⟨by decide, encode_accb_toNat, fun base len => ?_, fun base => encode_accbuf_toNat ⟨false, base⟩, by decide,
    fun base len => ?_, fun base => encode_calculate_toNat ⟨false, base⟩, fun base len e => ?_,
    fun base => encode_verify_toNat ⟨false, base⟩, decode_encode,
    fun i hw => by rw [decode_encode, canonical_of_wf hw], fun _ _ => encode_of_decode⟩
  all_goals
    simp only [encode_accbuf_toNat, encode_calculate_toNat, encode_verify_toNat, if_true]
    omega

/-- Settles O1: each word is in a row of R70's listing. -/
theorem writtenWordsDecode : Obligations.WrittenWordsDecode := by
  unfold Obligations.WrittenWordsDecode
  decide

end Sys2Proof.Proofs
end

section
/-! What a step does to the responses, the host's stream and the read history, and runs of commands (R73, R74, R75, R171,
R173). -/

namespace Sys2Proof.Proofs
open Sys2Proof Sys2Proof.Machine

/-! ### Responses and the invariant -/

/-- The responses a command that answers adds to those delivered before it (R74). -/
theorem exec_responses {i : Instr} {s t : State} (ht : exec i s = .next t) :
    match i with
    | .reset | .accb _ | .accbuf _ _ => t.responses = s.responses
    | .value | .calculate _ _ => ∃ v, t.responses = s.responses ++ [byteWord v]
    | .verify _ _ _ => ∃ b, t.responses = s.responses ++ [boolWord b] := by
  obtain ⟨rfl, rfl⟩ | ⟨b, rfl, rfl⟩ | ⟨h, len, rfl, -, rfl⟩ | ⟨rfl, rfl⟩ | ⟨h, len, rfl, -, rfl⟩ |
    ⟨h, len, e, rfl, -, rfl⟩ := exec_next_cases ht
  case inl | inr.inl | inr.inr.inl => rfl
  all_goals exact ⟨_, rfl⟩

/-- Settles O26: the command's responses, where a boolean's word is one of two. -/
theorem whichCommandsRespond : Obligations.WhichCommandsRespond := by
  intro i s t ht
  have hr := exec_responses ht
  cases i with
  | reset | accb | accbuf | value | calculate => exact hr
  | verify h len e =>
    obtain ⟨_ | _, hb⟩ := hr
    · exact .inr hb
    · exact .inl hb

theorem legalResponse_byteWord (v : Byte) : legalResponse (byteWord v) = true := by
  simp only [legalResponse, byteWord, BitVec.toNat_ofNat, decide_eq_true_eq]
  omega

theorem legalResponse_boolWord (b : Bool) : legalResponse (boolWord b) = true := by
  cases b <;> rfl

theorem inv_iff {s : State} : s.inv = true ↔ cellsWf s.mem = true ∧ s.responses.all legalResponse = true := by
  rw [State.inv, Bool.and_eq_true]

/-- Every word a command delivers is one R73 allows. -/
theorem exec_responses_legal {i : Instr} {s t : State} (ht : exec i s = .next t)
    (hs : s.responses.all legalResponse = true) : t.responses.all legalResponse = true := by
  have hr := exec_responses ht
  cases i with
  | reset | accb | accbuf => rwa [hr]
  | value | calculate =>
    obtain ⟨v, hv⟩ := hr
    simp [hv, hs, legalResponse_byteWord]
  | verify h len e =>
    obtain ⟨b, hb⟩ := hr
    simp [hb, hs, legalResponse_boolWord]

theorem exec_inv {i : Instr} {s t : State} (ht : exec i s = .next t) (hs : s.inv = true) : t.inv = true := by
  obtain ⟨hmem, hresp⟩ := inv_iff.mp hs
  exact inv_iff.mpr ⟨by rwa [exec_mem ht], exec_responses_legal ht hresp⟩

theorem hostStore_inv {s : State} (a : Addr) (b : Byte) (hs : s.inv = true) : (hostStore a b s).inv = true := by
  obtain ⟨hmem, hresp⟩ := inv_iff.mp hs
  exact inv_iff.mpr ⟨cellsWf_writeCells a b hmem, hresp⟩

/-- Settles O47: a host's store keeps the cells canonical, a command leaves them alone and delivers legal words only. -/
theorem stepKeepsInvariant : Obligations.StepKeepsInvariant := by
  intro s t hs ht
  obtain ⟨-, rfl⟩ | ⟨a, b, rest, -, rfl⟩ | ⟨w, rest, i, -, -, he⟩ := step_next_cases ht
  · exact hs
  · exact hostStore_inv (s := dropMove s) a b hs
  · exact exec_inv (s := dropMove s) he hs

/-! ### The stream -/

theorem exec_stream {i : Instr} {s t : State} (ht : exec i s = .next t) : t.stream = s.stream := by
  obtain ⟨-, rfl⟩ | ⟨b, -, rfl⟩ | ⟨h, len, -, -, rfl⟩ | ⟨-, rfl⟩ | ⟨h, len, -, -, rfl⟩ | ⟨h, len, e, -, -, rfl⟩ :=
    exec_next_cases ht
  all_goals rfl

theorem step_stream {s t : State} (ht : step s = .next t) : t.stream = s.stream.tail := by
  obtain ⟨hs, rfl⟩ | ⟨a, b, rest, -, rfl⟩ | ⟨w, rest, i, -, -, he⟩ := step_next_cases ht
  · rw [hs, List.tail_nil]
  · rfl
  · exact exec_stream he

theorem commandReads_length_le (s : State) (i : Instr) : (commandReads s i).length ≤ 65535 := by
  cases i with
  | reset | accb | value => exact Nat.zero_le _
  | accbuf h len | calculate h len | verify h len _ =>
    rw [commandReads, dataReads_length]
    exact readCount_le h len

theorem step_reads_length_le {s t : State} (ht : step s = .next t) : t.reads.length ≤ s.reads.length + 65535 := by
  obtain ⟨-, rfl⟩ | ⟨a, b, rest, -, rfl⟩ | ⟨w, rest, i, -, -, he⟩ := step_next_cases ht
  · exact Nat.le_add_right _ _
  · exact Nat.le_add_right _ _
  · rw [exec_reads he, List.length_append]
    exact Nat.add_le_add_left (commandReads_length_le _ i) _

theorem andThen_eq_next {r : Result} {k : State → Result} {t : State} :
    andThen r k = .next t ↔ ∃ u, r = .next u ∧ k u = .next t := by
  cases r <;> simp [andThen]

theorem step_of_stream_nil {s : State} (hs : s.stream = []) : step s = .next s := by
  simp only [step, hs, idle]

theorem runSteps_of_stream_nil {s : State} (hs : s.stream = []) (k : Nat) : runSteps k s = .next s := by
  induction k with
  | zero => rfl
  | succ k ih => rw [runSteps, step_of_stream_nil hs, andThen, ih]

/-- Each step of a run takes one move off the stream. -/
theorem runSteps_stream {k : Nat} {s t : State} (ht : runSteps k s = .next t) : t.stream = s.stream.drop k := by
  induction k generalizing s with
  | zero =>
    obtain rfl : s = t := Host.Outcome.next.inj ht
    rfl
  | succ k ih =>
    obtain ⟨u, hu, ht⟩ := andThen_eq_next.mp ht
    rw [ih ht, step_stream hu, List.drop_tail]

/-- Settles O10: each step drops the stream's head and reads one command's sequence at most; an empty stream is idle. -/
theorem oneMovePerStep : Obligations.OneMovePerStep := by
  refine ⟨fun s t ht => ⟨step_stream ht, step_reads_length_le ht⟩, fun s t ht => ?_,
    fun s hs k => runSteps_of_stream_nil hs k⟩
  rw [runSteps_stream ht, List.drop_length]

/-! ### An ignored BASE (R66) -/

theorem readAddrs_canonical (h : Handle) (len : Len) : readAddrs h.canonical len = readAddrs h len := by
  obtain ⟨_ | _, base⟩ := h <;> rfl

/-- A bulk command's handle enters through the addresses it names only. -/
theorem readSequence_canonical (h : Handle) (len : Len) : readSequence h.canonical len = readSequence h len := by
  funext s k
  simp only [readSequence, seqBytes, recordReads, seqReads, readAddrs_canonical]

theorem exec_canonical (i : Instr) (s : State) : exec i.canonical s = exec i s := by
  cases i with
  | reset | accb | value => rfl
  | accbuf h len => simp only [Instr.canonical, exec, execAccbuf, readSequence_canonical]
  | calculate h len => simp only [Instr.canonical, exec, execCalc, readSequence_canonical]
  | verify h len e => simp only [Instr.canonical, exec, execVerify, readSequence_canonical]

theorem dataAdmitted_zero (s : State) (base : Addr) : dataAdmitted s base 0 :=
  fun i hi => absurd hi (Nat.not_lt_zero i)

/-- Settles O5: the canonical handle names the same addresses, and an absent one names none. -/
theorem absentHandleIgnoresBase : Obligations.AbsentHandleIgnoresBase := by
  refine ⟨exec_canonical, fun base len s => ?_⟩
  rw [exec_accbuf (dataAdmitted_zero s base)]
  simp

/-! ### Words and runs -/

theorem decodeTableWord_eq_some {nbits w : Nat} {i : Instr} :
    decodeTableWord nbits w = some i ↔ decode (tableWord nbits w) = .command i := by
  unfold decodeTableWord
  cases decode (tableWord nbits w) <;> simp

/-- Settles O8: the placed word is the head of the stream, and taking it leaves the state it was placed in. -/
theorem placedWordRunsNext : Obligations.PlacedWordRunsNext :=
  fun s nbits w _ hi => step_issue_command (s := s.withFetchWord nbits w) rfl (decodeTableWord_eq_some.mp hi)

/-- The state with another list of the host's moves to come. -/
def withStream (moves : List HostMove) (s : State) : State := { s with stream := moves }

@[simp] theorem withStream_admits (moves : List HostMove) (s : State) : (withStream moves s).admits = s.admits := rfl

/-- A bulk command's reads do not see the stream; so if what follows only passes it on, neither does the command. -/
theorem readSequence_withStream {k : List Byte → State → Result} (moves : List HostMove) (h : Handle) (len : Len) (s : State)
    (hk : ∀ bs t, k bs (withStream moves t) = mapNext (withStream moves) (k bs t)) :
    readSequence h len (withStream moves s) k = mapNext (withStream moves) (readSequence h len s k) := by
  unfold readSequence
  rw [withStream_admits]
  cases firstUnadmitted s.admits (readAddrs h len) with
  | none => exact hk _ (recordReads s h len)
  | some a => rfl

/-- No command sees or changes the moves still to come. -/
theorem exec_withStream (i : Instr) (moves : List HostMove) (s : State) :
    exec i (withStream moves s) = mapNext (withStream moves) (exec i s) := by
  cases i with
  | reset | accb | value => rfl
  | accbuf h len =>
    simp only [exec, execAccbuf]
    exact readSequence_withStream moves h len s fun bs t => by simp only [accumulateBytes_eq]; rfl
  | calculate h len =>
    simp only [exec, execCalc]
    exact readSequence_withStream moves h len s fun _ _ => rfl
  | verify h len e =>
    simp only [exec, execVerify]
    exact readSequence_withStream moves h len s fun _ _ => rfl

/-- The step at the canonical word of a command is the command. -/
theorem step_encode (i : Instr) (rest : List HostMove) (s : State) :
    step (withStream (.issue (encode i) :: rest) s) = exec i (withStream rest s) := by
  rw [step_issue_command (rest := rest) rfl (decode_encode i), exec_canonical]
  rfl

theorem runSteps_issueAll (is : List Instr) (s : State) :
    runSteps is.length (withStream (issueAll is) s) = execAll is (withStream [] s) := by
  induction is generalizing s with
  | nil => rfl
  | cons i is ih =>
    show andThen (step (withStream (.issue (encode i) :: issueAll is) s)) (runSteps is.length) =
      andThen (exec i (withStream [] s)) (execAll is)
    rw [step_encode, exec_withStream, exec_withStream]
    cases exec i s with
    | next t => exact ih t
    | fault f => rfl
    | refused r => rfl

/-- Settles O11, by induction on the commands: each canonical word's step is its command, which the moves that follow do
not touch. -/
theorem runIsCommandsInOrder : Obligations.RunIsCommandsInOrder := runSteps_issueAll

end Sys2Proof.Proofs
end

section
/-! The table of R72, the reserved words of R67 and R68, and the assembler's rows of R76. -/

namespace Sys2Proof.Proofs
open Sys2Proof Sys2Proof.Machine

/-! ### Match and mask (R72) -/

theorem fieldsWord_and_maskB (op : BitVec 4) (p : Bool) (z : BitVec 3) (imm : Byte) (len : Len) (base : Addr) :
    fieldsWord op p z imm len base &&& 0xF7FF00000000 = fieldsWord op false z imm 0 0 := by
  rw [Laws.maskB_eq, fieldsWord_and, fieldsWord_inj]
  exact ⟨BitVec.and_allOnes, Bool.and_false p, BitVec.and_allOnes, BitVec.and_allOnes, BitVec.and_zero, BitVec.and_zero⟩

theorem fieldsWord_and_maskV (op : BitVec 4) (p : Bool) (z : BitVec 3) (imm : Byte) (len : Len) (base : Addr) :
    fieldsWord op p z imm len base &&& 0xF70000000000 = fieldsWord op false z 0 0 0 := by
  rw [Laws.maskV_eq, fieldsWord_and, fieldsWord_inj]
  exact ⟨BitVec.and_allOnes, Bool.and_false p, BitVec.and_allOnes, BitVec.and_zero, BitVec.and_zero, BitVec.and_zero⟩

theorem fieldsWord_and_maskI (op : BitVec 4) (p : Bool) (z : BitVec 3) (imm : Byte) (len : Len) (base : Addr) :
    fieldsWord op p z imm len base &&& 0xFF00FFFFFFFF = fieldsWord op p z 0 len base := by
  rw [Laws.maskI_eq, fieldsWord_and, fieldsWord_inj]
  exact ⟨BitVec.and_allOnes, Bool.and_true p, BitVec.and_allOnes, BitVec.and_zero, BitVec.and_allOnes, BitVec.and_allOnes⟩

theorem and_maskN (w : CmdWord) : w &&& 0xFFFFFFFFFFFF = w := BitVec.and_allOnes

/-- The rows of format B. -/
theorem and_maskB_eq_iff {w : CmdWord} {op : BitVec 4} :
    w &&& 0xF7FF00000000 = fieldsWord op false 0 0 0 0 ↔ fieldZ w = 0 ∧ fieldOp w = op ∧ unusedB w = true := by
  rw [← fieldsWord_fields w, fieldsWord_and_maskB, fieldsWord_inj, fieldsWord_fields, unusedB_iff]
  tauto

/-- The row of format V. -/
theorem and_maskV_eq_iff {w : CmdWord} {op : BitVec 4} :
    w &&& 0xF70000000000 = fieldsWord op false 0 0 0 0 ↔ fieldZ w = 0 ∧ fieldOp w = op := by
  rw [← fieldsWord_fields w, fieldsWord_and_maskV, fieldsWord_inj, fieldsWord_fields]
  tauto

/-- The row of format I. -/
theorem and_maskI_eq_iff {w : CmdWord} {op : BitVec 4} :
    w &&& 0xFF00FFFFFFFF = fieldsWord op false 0 0 0 0 ↔ fieldZ w = 0 ∧ fieldOp w = op ∧ unusedI w = true := by
  rw [← fieldsWord_fields w, fieldsWord_and_maskI, fieldsWord_inj, fieldsWord_fields, unusedI_iff]
  tauto

theorem decode_eq_value_iff {w : CmdWord} : decode w = .command .value ↔ w = 0x400000000000 := by
  rw [decode_eq_command_iff, show carriedWord .value = 0x400000000000 by decide]

theorem decode_accb_iff {w : CmdWord} :
    (∃ b, decode w = .command (.accb b)) ↔ fieldZ w = 0 ∧ fieldOp w = 0x2 ∧ unusedI w = true := by
  simp [decode_eq_command_cases]

theorem decode_accbuf_iff {w : CmdWord} :
    (∃ h len, decode w = .command (.accbuf h len)) ↔ fieldZ w = 0 ∧ fieldOp w = 0x3 ∧ unusedB w = true := by
  simp [decode_eq_command_cases]

theorem decode_calculate_iff {w : CmdWord} :
    (∃ h len, decode w = .command (.calculate h len)) ↔ fieldZ w = 0 ∧ fieldOp w = 0x5 ∧ unusedB w = true := by
  simp [decode_eq_command_cases]

theorem decode_verify_iff {w : CmdWord} :
    (∃ h len e, decode w = .command (.verify h len e)) ↔ fieldZ w = 0 ∧ fieldOp w = 0x6 := by
  simp [decode_eq_command_cases]

/-- Every row's mask covers OP, and every row's match is zero outside OP. -/
theorem maskWord_and_opMask (i : Instr) : maskWord i &&& 0xF00000000000 = 0xF00000000000 := by
  cases i <;> (simp only [maskWord]; decide)

theorem matchWord_and_opMask (i : Instr) : matchWord i &&& 0xF00000000000 = matchWord i := by
  cases i <;> (simp only [matchWord]; decide)

/-- The match of the row a word meets is the word's OP. -/
theorem matchWord_eq_opField {w : CmdWord} {i : Instr} (h : w &&& maskWord i = matchWord i) :
    matchWord i = w &&& 0xF00000000000 := by
  calc matchWord i = w &&& maskWord i &&& 0xF00000000000 := by rw [h, matchWord_and_opMask]
    _ = w &&& 0xF00000000000 := by rw [BitVec.and_assoc, maskWord_and_opMask]

/-! ### The count of command words (R72) -/

theorem carriedWord_injective : Function.Injective carriedWord := by
  intro i j hij
  simpa [decode_carriedWord] using congrArg decode hij

/-- The command words are as many as the commands, since a command has one layout. -/
theorem card_commandWords : Nat.card {w : CmdWord // ∃ i, decode w = .command i} = Nat.card Instr := by
  simp only [decode_eq_command_iff, eq_comm (b := carriedWord _)]
  exact Nat.card_range_of_injective carriedWord_injective

/-- A handle as its two fields. -/
def handleFields : Handle ≃ Bool × Addr where
  toFun h := (h.present, h.base)
  invFun f := ⟨f.1, f.2⟩

/-- A command as its row of R72 and its operands. -/
def instrRows : Instr ≃ Unit ⊕ Byte ⊕ (Handle × Len) ⊕ Unit ⊕ (Handle × Len) ⊕ (Handle × Len × Byte) where
  toFun
    | .reset => .inl ()
    | .accb b => .inr (.inl b)
    | .accbuf h len => .inr (.inr (.inl (h, len)))
    | .value => .inr (.inr (.inr (.inl ())))
    | .calculate h len => .inr (.inr (.inr (.inr (.inl (h, len)))))
    | .verify h len e => .inr (.inr (.inr (.inr (.inr (h, len, e)))))
  invFun
    | .inl () => .reset
    | .inr (.inl b) => .accb b
    | .inr (.inr (.inl (h, len))) => .accbuf h len
    | .inr (.inr (.inr (.inl ()))) => .value
    | .inr (.inr (.inr (.inr (.inl (h, len))))) => .calculate h len
    | .inr (.inr (.inr (.inr (.inr (h, len, e))))) => .verify h len e
  left_inv i := by cases i <;> rfl
  right_inv r := by rcases r with _ | _ | _ | _ | _ | _ <;> rfl

theorem card_bitVec (n : Nat) : Nat.card (BitVec n) = 2 ^ n := by
  rw [Nat.card_congr BitVec.equivFin.toEquiv, Nat.card_fin]

theorem card_handle : Nat.card Handle = 2 ^ 17 := by
  rw [Nat.card_congr handleFields, Nat.card_prod, card_bitVec]
  simp

theorem card_instr : Nat.card Instr = 1 + 256 + 2 ^ 33 + 1 + 2 ^ 33 + 2 ^ 41 := by
  have hfin : Finite Handle := Finite.of_equiv _ handleFields.symm
  rw [Nat.card_congr instrRows]
  simp only [Nat.card_sum, Nat.card_prod, card_bitVec, card_handle, Nat.card_unique]
  norm_num

/-- Settles O3: each row's mask and match ask exactly what the decoder asks; a row's match is the word's OP; and the
command words are counted as the commands are. -/
theorem opcodeTableMatchesAndCounts : Obligations.OpcodeTableMatchesAndCounts := by
  refine ⟨fun w => ⟨?_, ?_, ?_, ?_, ?_, ?_⟩, fun w i j hi hj => ?_, card_commandWords.trans card_instr⟩
  · rw [and_maskN, decode_eq_reset_iff]
  · rw [decode_accb_iff, ← and_maskI_eq_iff]
    exact Iff.rfl
  · rw [decode_accbuf_iff, ← and_maskB_eq_iff]
    exact Iff.rfl
  · rw [and_maskN, decode_eq_value_iff]
  · rw [decode_calculate_iff, ← and_maskB_eq_iff]
    exact Iff.rfl
  · rw [decode_verify_iff, ← and_maskV_eq_iff]
    exact Iff.rfl
  · rw [matchWord_eq_opField hi, matchWord_eq_opField hj]

/-! ### The reserved words (R67, R68) -/

theorem fieldOp_toNat (w : CmdWord) : (fieldOp w).toNat = w.toNat / 2 ^ 44 := by
  simp only [fieldOp, BitVec.extractLsb'_toNat, Nat.shiftRight_eq_div_pow]
  omega

theorem fieldZ_toNat (w : CmdWord) : (fieldZ w).toNat = w.toNat / 2 ^ 40 % 8 := by
  simp only [fieldZ, BitVec.extractLsb'_toNat, Nat.shiftRight_eq_div_pow]

theorem fieldImm8_toNat (w : CmdWord) : (fieldImm8 w).toNat = w.toNat / 2 ^ 32 % 256 := by
  simp only [fieldImm8, BitVec.extractLsb'_toNat, Nat.shiftRight_eq_div_pow]

theorem fieldLen_toNat (w : CmdWord) : (fieldLen w).toNat = w.toNat / 2 ^ 16 % 65536 := by
  simp only [fieldLen, BitVec.extractLsb'_toNat, Nat.shiftRight_eq_div_pow]

theorem fieldBase_toNat (w : CmdWord) : (fieldBase w).toNat = w.toNat % 65536 := by
  simp only [fieldBase, BitVec.extractLsb'_toNat, Nat.shiftRight_zero]

theorem fieldP_eq_false_iff (w : CmdWord) : fieldP w = false ↔ w.toNat / 2 ^ 43 % 2 = 0 := by
  rw [fieldP, BitVec.getLsbD, Nat.testBit_eq_decide_div_mod_eq, decide_eq_false_iff_not]
  exact Nat.mod_two_ne_one

theorem fieldOp_eq_iff (w : CmdWord) (op : BitVec 4) : fieldOp w = op ↔ w.toNat / 2 ^ 44 = op.toNat := by
  rw [← BitVec.toNat_inj, fieldOp_toNat]

theorem fieldZ_eq_zero_iff (w : CmdWord) : fieldZ w = 0 ↔ w.toNat / 2 ^ 40 % 8 = 0 := by
  rw [← BitVec.toNat_inj, fieldZ_toNat, BitVec.ofNat_eq_ofNat, BitVec.toNat_zero]

/-- With Z zero, format N leaves nothing below OP. -/
theorem unusedN_iff_mod {w : CmdWord} (hz : fieldZ w = 0) : unusedN w = true ↔ w.toNat % 2 ^ 44 = 0 := by
  rw [fieldZ_eq_zero_iff] at hz
  rw [unusedN_iff, fieldP_eq_false_iff, ← BitVec.toNat_inj, ← BitVec.toNat_inj, ← BitVec.toNat_inj, fieldImm8_toNat,
    fieldLen_toNat, fieldBase_toNat]
  simp only [BitVec.ofNat_eq_ofNat, BitVec.toNat_zero]
  omega

theorem unusedI_iff_mod {w : CmdWord} : unusedI w = true ↔ w.toNat / 2 ^ 43 % 2 = 0 ∧ w.toNat % 2 ^ 32 = 0 := by
  rw [unusedI_iff, fieldP_eq_false_iff, ← BitVec.toNat_inj, ← BitVec.toNat_inj, fieldLen_toNat, fieldBase_toNat]
  simp only [BitVec.ofNat_eq_ofNat, BitVec.toNat_zero]
  omega

theorem unusedB_iff_mod {w : CmdWord} : unusedB w = true ↔ w.toNat / 2 ^ 32 % 256 = 0 := by
  rw [unusedB_iff, ← BitVec.toNat_inj, fieldImm8_toNat, BitVec.ofNat_eq_ofNat, BitVec.toNat_zero]

theorem reserved_iff_not_command {w : CmdWord} :
    (∃ why, decode w = .reserved why) ↔ ¬∃ i, decode w = .command i := by
  cases decode w <;> simp

/-- The words that are some command's, by their fields. -/
theorem exists_command_iff {w : CmdWord} :
    (∃ i, decode w = .command i) ↔ fieldZ w = 0 ∧
      ((fieldOp w = 0x1 ∨ fieldOp w = 0x4) ∧ unusedN w = true ∨ fieldOp w = 0x2 ∧ unusedI w = true ∨
        (fieldOp w = 0x3 ∨ fieldOp w = 0x5) ∧ unusedB w = true ∨ fieldOp w = 0x6) := by
  simp only [decode_eq_command_cases, exists_and_left, exists_or, exists_eq', and_true]
  tauto

theorem exists_command_iff_arith {w : CmdWord} :
    (∃ i, decode w = .command i) ↔ w.toNat / 2 ^ 40 % 8 = 0 ∧
      ((w.toNat / 2 ^ 44 = 1 ∨ w.toNat / 2 ^ 44 = 4) ∧ w.toNat % 2 ^ 44 = 0 ∨
        w.toNat / 2 ^ 44 = 2 ∧ w.toNat / 2 ^ 43 % 2 = 0 ∧ w.toNat % 2 ^ 32 = 0 ∨
        (w.toNat / 2 ^ 44 = 3 ∨ w.toNat / 2 ^ 44 = 5) ∧ w.toNat / 2 ^ 32 % 256 = 0 ∨ w.toNat / 2 ^ 44 = 6) := by
  rw [exists_command_iff, ← fieldZ_eq_zero_iff]
  refine and_congr_right fun hz => ?_
  simp only [unusedN_iff_mod hz, unusedI_iff_mod, unusedB_iff_mod, fieldOp_eq_iff]
  exact Iff.rfl

theorem step_issue_reserved {s : State} {w : CmdWord} {rest : List HostMove} {why : Reserved}
    (hs : s.stream = .issue w :: rest) (hw : decode w = .reserved why) : step s = .refused (.reservedWord why) := by
  simp only [step, hs, hw]

/-- Settles O4: a word is reserved when it is no command's, and the fields of the commands' words are known. -/
theorem reservedWordsAreRefused : Obligations.ReservedWordsAreRefused := by
  refine ⟨fun w => ?_, fun s w rest why => step_issue_reserved⟩
  rw [reserved_iff_not_command, exists_command_iff_arith]
  generalize w.toNat / 2 ^ 44 = op, w.toNat / 2 ^ 40 % 8 = z, w.toNat % 2 ^ 44 = below, w.toNat / 2 ^ 43 % 2 = p,
    w.toNat % 2 ^ 32 = low, w.toNat / 2 ^ 32 % 256 = imm
  omega

/-! ### The assembler's rows (R76) -/

section
variable (h : AsmOperand) (b len e : Nat)

theorem asmCommand_accb : asmCommand ['A', 'C', 'C', 'B'] [.num b] = (asmByte b).map .accb := rfl

theorem asmCommand_accbuf : asmCommand ['A', 'C', 'C', 'B', 'U', 'F'] [h, .num len] =
    (asmHandle h).bind fun h => (asmLen len).map (.accbuf h) := by
  simp only [asmCommand]
  cases asmHandle h <;> cases asmLen len <;> rfl

theorem asmCommand_calc : asmCommand ['C', 'A', 'L', 'C'] [h, .num len] =
    (asmHandle h).bind fun h => (asmLen len).map (.calculate h) := by
  simp only [asmCommand]
  cases asmHandle h <;> cases asmLen len <;> rfl

theorem asmCommand_verify : asmCommand ['V', 'E', 'R', 'I', 'F', 'Y'] [h, .num len, .num e] =
    (asmHandle h).bind fun h => (asmLen len).bind fun len => (asmByte e).map (.verify h len) := by
  simp only [asmCommand]
  cases asmHandle h <;> cases asmLen len <;> cases asmByte e <;> rfl

end

/-- Settles O6: an operand within its bound is the number written, and the command made of them has the word O2's layouts
give; one operand beyond its bound leaves no command. -/
theorem assemblerTable : Obligations.AssemblerTable := by
  refine ⟨by decide, by decide, fun b => ?_, fun base len => ?_, fun len => ?_, fun base len => ?_, fun len => ?_,
    fun base len e => ?_, fun len e => ?_⟩
  all_goals
    simp only [asmCommand_accb, asmCommand_accbuf, asmCommand_calc, asmCommand_verify, asmHandle, asmLen, asmByte]
    split_ifs <;>
      simp [encode_accb_toNat, encode_accbuf_toNat, encode_calculate_toNat, encode_verify_toNat] <;> omega

end Sys2Proof.Proofs
end

section
/-! The adder and the accumulator commands (R90 to R95), and the closed form of a run of commands (R96). -/

namespace Sys2Proof.Proofs
open Sys2Proof Sys2Proof.Machine

/-! ### One command -/

/-- Settles O13: both forms have the same value over the integers. -/
theorem add8IsModulo256 : Obligations.Add8IsModulo256 := by
  intro a b
  refine ⟨add8_toNat a b, BitVec.eq_of_toNat_eq ?_⟩
  rw [add8_toNat]
  simp only [BitVec.truncate_eq_setWidth, BitVec.toNat_setWidth, BitVec.toNat_add]
  omega

theorem exec_reset (s : State) : exec .reset s = .next (seed s) := rfl

theorem exec_accb (b : Byte) (s : State) : exec (.accb b) s = .next (accumulateByte s b) := rfl

/-- Settles O14: RESET seeds ACC with the hardwired initial value, whatever the state. -/
theorem resetLoadsInitialValue : Obligations.ResetLoadsInitialValue :=
  ⟨by decide, exec_reset⟩

/-- Settles O15: the byte is added by `add8` while SEEDED, and ACC is kept while UNSEEDED. -/
theorem accbAddsImmediate : Obligations.AccbAddsImmediate := by
  refine fun b s => ⟨encode_accb_toNat b, fun hs => ?_, fun hs => ?_⟩
  · rw [exec_accb, ← add8_toNat, BitVec.ofNat_toNat, BitVec.setWidth_eq, accumulateByte, if_pos hs]
  · rw [exec_accb, accumulateByte, if_neg (Bool.eq_false_iff.mp hs)]

/-- Settles O16: the admitted sequence is read whole, and its bytes are added in order, which is their sum modulo 256. -/
theorem accbufAddsSequence : Obligations.AccbufAddsSequence := by
  refine ⟨encode_accbuf_toNat, fun h len s ha => ?_⟩
  rw [exec_accbuf ha, ← addBytes_toNat, BitVec.ofNat_toNat, BitVec.setWidth_eq]

/-- Settles O17: the response is ACC while SEEDED and the next draw while UNSEEDED. -/
theorem valueRespondsAcc : Obligations.ValueRespondsAcc := by
  refine ⟨by decide, fun s => ⟨fun hs => ?_, fun hs => ⟨readOut s, ?_⟩⟩⟩
  · rw [exec_value, readOut, if_pos hs, if_pos hs]
  · rw [exec_value, if_neg (Bool.eq_false_iff.mp hs)]

/-! ### Runs of commands -/

theorem exec_admits {i : Instr} {s t : State} (ht : exec i s = .next t) : t.admits = s.admits := by
  obtain ⟨-, rfl⟩ | ⟨b, -, rfl⟩ | ⟨h, len, -, -, rfl⟩ | ⟨-, rfl⟩ | ⟨h, len, -, -, rfl⟩ | ⟨h, len, e, -, -, rfl⟩ :=
    exec_next_cases ht
  all_goals rfl

/-- Under the default launch memory every command completes. -/
theorem exec_completes {s : State} (hs : s.admits = .everywhere) (i : Instr) : ∃ t, exec i s = .next t := by
  cases i with
  | reset => exact ⟨_, exec_reset s⟩
  | accb b => exact ⟨_, exec_accb b s⟩
  | value => exact ⟨_, exec_value s⟩
  | accbuf h len => exact ⟨_, exec_accbuf (dataAdmitted_of_everywhere hs _ _)⟩
  | calculate h len => exact ⟨_, exec_calc (dataAdmitted_of_everywhere hs _ _)⟩
  | verify h len e => exact ⟨_, exec_verify e (dataAdmitted_of_everywhere hs _ _)⟩

/-- Every command but RESET adds its bytes to ACC while SEEDED, and leaves ACC alone while UNSEEDED. -/
theorem exec_acc {i : Instr} {s t : State} (hi : i ≠ .reset) (ht : exec i s = .next t) :
    t.acc = if s.seeded then addBytes s.acc (addedBytes s i) else s.acc := by
  obtain ⟨rfl, -⟩ | ⟨b, rfl, rfl⟩ | ⟨h, len, rfl, -, rfl⟩ | ⟨rfl, rfl⟩ | ⟨h, len, rfl, -, rfl⟩ |
    ⟨h, len, e, rfl, -, rfl⟩ := exec_next_cases ht
  case inl => exact absurd rfl hi
  case inr.inl | inr.inr.inl => rfl
  all_goals exact (ite_self s.acc).symm

/-- The bytes a command adds are taken from memory alone. -/
theorem addedBytes_congr {s t : State} (hm : t.mem = s.mem) : addedBytes t = addedBytes s := by
  funext i
  cases i with
  | accbuf h len => simp only [addedBytes, dataBytes, hm]
  | reset | accb | value | calculate | verify => rfl

theorem execAll_completes {s : State} (hs : s.admits = .everywhere) (is : List Instr) : ∃ t, execAll is s = .next t := by
  induction is generalizing s with
  | nil => exact ⟨s, rfl⟩
  | cons i is ih =>
    obtain ⟨u, hu⟩ := exec_completes hs i
    obtain ⟨t, ht⟩ := ih ((exec_admits hu).trans hs)
    exact ⟨t, andThen_eq_next.mpr ⟨u, hu, ht⟩⟩

theorem execAll_seeded {is : List Instr} {s t : State} (hi : .reset ∉ is) (ht : execAll is s = .next t) :
    t.seeded = s.seeded := by
  induction is generalizing s with
  | nil => rw [Host.Outcome.next.inj ht]
  | cons i is ih =>
    have hne : i ≠ .reset := (List.ne_of_not_mem_cons hi).symm
    obtain ⟨u, hu, ht⟩ := andThen_eq_next.mp ht
    rw [ih (List.not_mem_of_not_mem_cons hi) ht, exec_seeded hne hu]

/-- Commands among which no RESET stands add their bytes to ACC one command after another, each from the memory they all
find, since none writes it. -/
theorem execAll_acc {is : List Instr} {s t : State} (hi : .reset ∉ is) (hs : s.seeded = true)
    (ht : execAll is s = .next t) : t.acc = addBytes s.acc (is.flatMap (addedBytes s)) := by
  induction is generalizing s with
  | nil => rw [Host.Outcome.next.inj ht, List.flatMap_nil, addBytes_nil]
  | cons i is ih =>
    have hne : i ≠ .reset := (List.ne_of_not_mem_cons hi).symm
    obtain ⟨u, hu, ht⟩ := andThen_eq_next.mp ht
    have hacc : u.acc = addBytes s.acc (addedBytes s i) := by rw [exec_acc hne hu, if_pos hs]
    calc t.acc = addBytes u.acc (is.flatMap (addedBytes u)) :=
        ih (List.not_mem_of_not_mem_cons hi) ((exec_seeded hne hu).trans hs) ht
      _ = addBytes s.acc ((i :: is).flatMap (addedBytes s)) := by
        rw [hacc, addedBytes_congr (exec_mem hu), ← addBytes_append, List.flatMap_cons]

/-- The closed form from a SEEDED state under the default launch memory (R96). -/
theorem execAll_closedForm {is : List Instr} {s : State} (ha : s.admits = .everywhere) (hi : .reset ∉ is)
    (hs : s.seeded = true) : ∃ t, execAll is s = .next t ∧ t.seeded = true ∧
      t.acc.toNat = (s.acc.toNat + byteSum (is.flatMap (addedBytes s))) % 256 := by
  obtain ⟨t, ht⟩ := execAll_completes ha is
  exact ⟨t, ht, (execAll_seeded hi ht).trans hs, by rw [execAll_acc hi hs ht, addBytes_toNat]⟩

/-- Settles O31: a run after RESET is the run from the seeded state, where ACC is 255 and memory is as before. -/
theorem closedForm : Obligations.ClosedForm := by
  refine fun is s ha hi => ⟨execAll_closedForm ha hi, ?_, fun h len => ?_⟩
  · obtain ⟨t, ht, hseeded, hacc⟩ := execAll_closedForm (s := seed s) ha hi rfl
    rw [addedBytes_congr (seed_mem s)] at hacc
    exact ⟨t, ht, hseeded, hacc⟩
  · refine ⟨_, exec_calc (dataAdmitted_of_everywhere ha _ _), ?_⟩
    rw [byteWord, checksum_toNat, addedBytes]

end Sys2Proof.Proofs
end

section
/-! The stateless commands (R110 to R112), and CALC against RESET, accumulates, VALUE (R113). -/

namespace Sys2Proof.Proofs
open Sys2Proof Sys2Proof.Machine

/-! ### One command -/

/-- Settles O18: the admitted sequence is read whole, and the transient accumulator's value is its closed form. -/
theorem calcRespondsChecksum : Obligations.CalcRespondsChecksum := by
  refine ⟨encode_calculate_toNat, fun h len s ha => ?_⟩
  rw [exec_calc ha, byteWord, checksum_toNat]

theorem boolWord_checksum_beq (bs : List Byte) (e : Byte) :
    boolWord (checksum bs == e) = if (255 + byteSum bs) % 256 = e.toNat then 0x101 else 0x100 := by
  simp only [boolWord, beq_iff_eq, ← checksum_toNat, BitVec.toNat_inj]

/-- Settles O19: as CALC, where the checksum is compared with IMM8 as a byte. -/
theorem verifyComparesChecksum : Obligations.VerifyComparesChecksum := by
  refine ⟨encode_verify_toNat, fun h len e s ha => ?_⟩
  rw [exec_verify e ha, boolWord_checksum_beq]

/-- What each command that answers may have changed; every other field is as it was. -/
theorem exec_frame {i : Instr} {s t : State} (ht : exec i s = .next t) :
    match i with
    | .reset => t = { s with acc := t.acc, seeded := t.seeded }
    | .accb _ => t = { s with acc := t.acc }
    | .accbuf _ _ => t = { s with acc := t.acc, reads := t.reads }
    | .value => t = { s with responses := t.responses, draws := t.draws }
    | .calculate _ _ | .verify _ _ _ => t = { s with responses := t.responses, reads := t.reads } := by
  obtain ⟨rfl, rfl⟩ | ⟨b, rfl, rfl⟩ | ⟨h, len, rfl, -, rfl⟩ | ⟨rfl, rfl⟩ | ⟨h, len, rfl, -, rfl⟩ |
    ⟨h, len, e, rfl, -, rfl⟩ := exec_next_cases ht
  all_goals rfl

/-- The state with another ACC and SEEDED. -/
def withAcc (a : Byte) (b : Bool) (s : State) : State := { s with acc := a, seeded := b }

@[simp] theorem withAcc_admits (a : Byte) (b : Bool) (s : State) : (withAcc a b s).admits = s.admits := rfl

/-- A bulk command's reads do not see ACC or SEEDED; so if what follows only passes them on, neither does the command. -/
theorem readSequence_withAcc {k : List Byte → State → Result} (a : Byte) (b : Bool) (h : Handle) (len : Len) (s : State)
    (hk : ∀ bs t, k bs (withAcc a b t) = mapNext (withAcc a b) (k bs t)) :
    readSequence h len (withAcc a b s) k = mapNext (withAcc a b) (readSequence h len s k) := by
  unfold readSequence
  rw [withAcc_admits]
  cases firstUnadmitted s.admits (readAddrs h len) with
  | none => exact hk _ (recordReads s h len)
  | some _ => rfl

/-- Settles O29: both only read their sequence and respond, and neither of these sees or changes ACC or SEEDED. -/
theorem statelessIgnoresAcc : Obligations.StatelessIgnoresAcc := by
  refine fun h len e s a b => ⟨?_, ?_, fun t ht => ⟨exec_frame ht, ?_⟩, fun t ht => ⟨exec_frame ht, ?_⟩⟩
  · simp only [exec, execCalc]
    exact readSequence_withAcc a b h len s fun _ _ => rfl
  · simp only [exec, execVerify]
    exact readSequence_withAcc a b h len s fun _ _ => rfl
  all_goals
    obtain ⟨_, hr⟩ := exec_responses ht
    rw [hr, List.length_append, List.length_singleton]

/-! ### CALC and the manual sequence -/

theorem execAll_singleton (i : Instr) (s : State) : execAll [i] s = exec i s := by
  show andThen (exec i s) .next = exec i s
  cases exec i s <;> rfl

theorem execAll_append (is js : List Instr) (s : State) :
    execAll (is ++ js) s = andThen (execAll is s) (execAll js) := by
  induction is generalizing s with
  | nil => rfl
  | cons i is ih =>
    show andThen (exec i s) (execAll (is ++ js)) = andThen (andThen (exec i s) (execAll is)) (execAll js)
    cases exec i s with
    | next t => exact ih t
    | fault f => rfl
    | refused r => rfl

theorem reset_not_mem_of_isAccumulate {is : List Instr} (hi : ∀ i ∈ is, isAccumulate i = true) : .reset ∉ is :=
  fun hm => absurd (hi _ hm) (by decide)

theorem exec_responses_of_isAccumulate {i : Instr} {s t : State} (hi : isAccumulate i = true)
    (ht : exec i s = .next t) : t.responses = s.responses := by
  have hr := exec_responses ht
  cases i with
  | accb | accbuf => exact hr
  | reset | value | calculate | verify => cases hi

theorem execAll_responses_of_isAccumulate {is : List Instr} {s t : State} (hi : ∀ i ∈ is, isAccumulate i = true)
    (ht : execAll is s = .next t) : t.responses = s.responses := by
  induction is generalizing s with
  | nil => rw [Host.Outcome.next.inj ht]
  | cons i is ih =>
    obtain ⟨hi, his⟩ := List.forall_mem_cons.mp hi
    obtain ⟨u, hu, ht⟩ := andThen_eq_next.mp ht
    rw [ih his ht, exec_responses_of_isAccumulate hi hu]

/-- The manual sequence: RESET, accumulates that add `bs`, VALUE. It responds the checksum of `bs` and leaves it in ACC. -/
theorem execAll_manualSequence {is : List Instr} {s : State} {bs : List Byte} (ha : s.admits = .everywhere)
    (hi : ∀ i ∈ is, isAccumulate i = true) (hbs : is.flatMap (addedBytes s) = bs) :
    ∃ t, execAll (.reset :: (is ++ [.value])) s = .next t ∧ t.responses = s.responses ++ [byteWord (checksum bs)] ∧
      t.acc = checksum bs ∧ t.seeded = true := by
  have hreset := reset_not_mem_of_isAccumulate hi
  obtain ⟨t, ht⟩ := execAll_completes (s := seed s) ha is
  have hseeded : t.seeded = true := execAll_seeded hreset ht
  have hresp : t.responses = s.responses := (execAll_responses_of_isAccumulate hi ht).trans (seed_responses s)
  have hacc : t.acc = checksum bs := by
    rw [execAll_acc hreset rfl ht, addedBytes_congr (seed_mem s), hbs, seed_acc, checksum]
  refine ⟨{ t with responses := t.responses ++ [byteWord t.acc] }, ?_, by rw [hresp, hacc], hacc, hseeded⟩
  calc execAll (.reset :: (is ++ [.value])) s
      = execAll (is ++ [.value]) (seed s) := rfl
    _ = exec .value t := by rw [execAll_append, ht, andThen, execAll_singleton]
    _ = .next { t with responses := t.responses ++ [byteWord t.acc] } := (valueRespondsAcc.2 t).1 hseeded

/-- Settles O32: ACCBUF and the given commands are two manual sequences over the same bytes, those of CALC's checksum. -/
theorem calcEqualsManualSequence : Obligations.CalcEqualsManualSequence := by
  intro h len is s ha hi hbs
  have haccbuf : ∀ i ∈ [Instr.accbuf h len], isAccumulate i = true := List.forall_mem_singleton.mpr rfl
  obtain ⟨u, hu, huresp, huacc, huseeded⟩ := execAll_manualSequence ha haccbuf (List.flatMap_singleton _ _)
  obtain ⟨w, hw, hwresp, hwacc, hwseeded⟩ := execAll_manualSequence ha hi hbs
  exact ⟨_, u, w, checksum (addedBytes s (.accbuf h len)), exec_calc (dataAdmitted_of_everywhere ha _ _), hu, hw,
    rfl, huresp, hwresp, rfl, rfl, huacc, huseeded, hwacc, hwseeded⟩

end Sys2Proof.Proofs
end

section
/-! The source's properties of a run of accumulates (R121 to R126, R135): an absent handle or a zero length, the division of
the bytes between commands, repeated addition. -/

namespace Sys2Proof.Proofs
open Sys2Proof Sys2Proof.Machine

/-! ### Nothing to read (R124, R125) and totality (R135) -/

theorem execAll_reset_cons (is : List Instr) (s : State) : execAll (.reset :: is) s = execAll is (seed s) := rfl

/-- Settles O35: RESET leaves the seeded state, from which VALUE responds the initial value. -/
theorem resetThenValue : Obligations.ResetThenValue := by
  intro s
  calc execAll [.reset, .value] s
      = exec .value (seed s) := by rw [execAll_reset_cons, execAll_singleton]
    _ = .next { seed s with responses := s.responses ++ [byteWord Config.initialValue] } :=
        (valueRespondsAcc.2 (seed s)).1 rfl

section
variable {h : Handle} {len : Len} (hd : h.present = false ∨ len = 0) (s : State)
include hd

/-- A sequence that is empty is admitted by every launch memory. -/
theorem dataAdmitted_of_no_data : dataAdmitted s h.base (readCount h len) := by
  rw [readCount_eq_zero_iff.mpr hd]
  exact dataAdmitted_zero s h.base

theorem exec_calc_of_no_data :
    exec (.calculate h len) s = .next { s with responses := s.responses ++ [0x0FF] } := by
  rw [exec_calc (dataAdmitted_of_no_data hd s), readCount_eq_zero_iff.mpr hd, dataReads_zero, List.append_nil]
  rfl

theorem exec_accbuf_of_no_data : exec (.accbuf h len) s = .next s := by
  rw [exec_accbuf (dataAdmitted_of_no_data hd s), readCount_eq_zero_iff.mpr hd, dataReads_zero, List.append_nil,
    dataBytes_zero, addBytes_nil, ite_self]

theorem exec_verify_of_no_data (e : Byte) :
    exec (.verify h len e) s = .next { s with responses := s.responses ++ [if e = 0xFF then 0x101 else 0x100] } := by
  have hword : boolWord (checksum [] == e) = if e = 0xFF then 0x101 else 0x100 := by
    simp only [boolWord, beq_iff_eq, eq_comm (a := e)]
    rfl
  rw [exec_verify e (dataAdmitted_of_no_data hd s), readCount_eq_zero_iff.mpr hd, dataReads_zero, List.append_nil,
    dataBytes_zero, hword]

end

/-- Settles O36: the sequence is empty, so its checksum is the initial value and ACC keeps its own. -/
theorem noDataAccumulatesNothing : Obligations.NoDataAccumulatesNothing := fun _ _ e s hd =>
  ⟨exec_calc_of_no_data hd s, exec_accbuf_of_no_data hd s, exec_verify_of_no_data hd s e⟩

/-- Settles O21: every address is admitted or there is none to read, and there is no fault to end in. -/
theorem commandsAreTotal : Obligations.CommandsAreTotal := by
  refine ⟨fun i s ha => ?_, fun _ _ f => (nomatch f), fun h len e s hd => ?_⟩
  · obtain ⟨t, ht⟩ := exec_completes ha i
    refine ⟨t, ht, ?_⟩
    rw [exec_reads ht, List.length_append]
    exact Nat.add_le_add_left (commandReads_length_le s i) _
  · exact ⟨⟨_, exec_accbuf_of_no_data hd s⟩, ⟨_, exec_calc_of_no_data hd s⟩, ⟨_, exec_verify_of_no_data hd s e⟩⟩

/-! ### The bulk commands under the default launch memory -/

/-- ACCBUF's ACC, from a SEEDED state. -/
theorem exec_accbuf_acc {s : State} (ha : s.admits = .everywhere) (hs : s.seeded = true) (h : Handle) (len : Len) :
    ∃ t, exec (.accbuf h len) s = .next t ∧ t.acc = addBytes s.acc (addedBytes s (.accbuf h len)) :=
  ⟨_, exec_accbuf (dataAdmitted_of_everywhere ha _ _), if_pos hs⟩

/-- CALC's one response. -/
theorem exec_calc_responses {s : State} (ha : s.admits = .everywhere) (h : Handle) (len : Len) :
    ∃ t, exec (.calculate h len) s = .next t ∧
      t.responses = s.responses ++ [byteWord (checksum (dataBytes s h.base (readCount h len)))] :=
  ⟨_, exec_calc (dataAdmitted_of_everywhere ha _ _), rfl⟩

/-- VERIFY's one response. -/
theorem exec_verify_responses {s : State} (ha : s.admits = .everywhere) (h : Handle) (len : Len) (e : Byte) :
    ∃ t, exec (.verify h len e) s = .next t ∧
      t.responses = s.responses ++ [boolWord (checksum (dataBytes s h.base (readCount h len)) == e)] :=
  ⟨_, exec_verify e (dataAdmitted_of_everywhere ha _ _), rfl⟩

/-! ### Division between commands (R121, R122) -/

/-- What ACC becomes depends on the bytes added and their order only, not on the commands that add them. -/
theorem execAll_acc_eq_of_addedBytes_eq {is js : List Instr} {s : State} (ha : s.admits = .everywhere)
    (hs : s.seeded = true) (hi : ∀ i ∈ is, isAccumulate i = true) (hj : ∀ j ∈ js, isAccumulate j = true)
    (hb : is.flatMap (addedBytes s) = js.flatMap (addedBytes s)) :
    ∃ t u, execAll is s = .next t ∧ execAll js s = .next u ∧ t.acc = u.acc := by
  obtain ⟨t, ht⟩ := execAll_completes ha is
  obtain ⟨u, hu⟩ := execAll_completes ha js
  refine ⟨t, u, ht, hu, ?_⟩
  rw [execAll_acc (reset_not_mem_of_isAccumulate hi) hs ht, execAll_acc (reset_not_mem_of_isAccumulate hj) hs hu, hb]

theorem isAccumulate_of_mem_map_accb (bs : List Byte) : ∀ i ∈ bs.map Instr.accb, isAccumulate i = true :=
  List.forall_mem_map.mpr fun _ _ => rfl

theorem flatMap_addedBytes_map_accb (s : State) (bs : List Byte) : (bs.map Instr.accb).flatMap (addedBytes s) = bs := by
  rw [List.flatMap_map]
  exact List.flatMap_singleton' bs

/-- Settles O33: ACCBUF and the ACCBs of its bytes are two of the sequences the first clause compares. -/
theorem batchInvariance : Obligations.BatchInvariance := by
  refine fun is js s ha hs hi hj hb => ⟨execAll_acc_eq_of_addedBytes_eq ha hs hi hj hb, fun base n => ?_⟩
  rw [← execAll_singleton]
  refine execAll_acc_eq_of_addedBytes_eq ha hs (List.forall_mem_singleton.mpr rfl) (isAccumulate_of_mem_map_accb _) ?_
  rw [flatMap_addedBytes_map_accb, List.flatMap_singleton, addedBytes, readCount_present]

theorem isAccumulate_of_mem_splitCommands (base : Addr) (ns : List Nat) :
    ∀ i ∈ splitCommands base ns, isAccumulate i = true := by
  induction ns generalizing base with
  | nil => exact List.forall_mem_nil _
  | cons n ns ih => exact List.forall_mem_cons.mpr ⟨rfl, ih _⟩

/-- A count that fits LEN is the number of reads of an ACCBUF or CALC of that length. -/
theorem readCount_ofNat {n : Nat} (hn : n ≤ 65535) (base : Addr) : readCount ⟨true, base⟩ (BitVec.ofNat 16 n) = n := by
  rw [readCount_present, BitVec.toNat_ofNat, Nat.mod_eq_of_lt (by omega)]

/-- Parts that follow one another add the bytes of the whole sequence, wherever the address wraps. -/
theorem flatMap_addedBytes_splitCommands (s : State) (base : Addr) {ns : List Nat} (hn : ∀ n ∈ ns, n ≤ 65535) :
    (splitCommands base ns).flatMap (addedBytes s) = dataBytes s base ns.sum := by
  induction ns generalizing base with
  | nil => rfl
  | cons n ns ih =>
    obtain ⟨hn, hns⟩ := List.forall_mem_cons.mp hn
    rw [splitCommands, List.flatMap_cons, ← effectiveAddr_eq_ofNat, ih _ hns, addedBytes, readCount_ofNat hn,
      List.sum_cons, dataBytes_add, effectiveAddr]

theorem exec_calc_responses_ofNat {s : State} (ha : s.admits = .everywhere) (base : Addr) {n : Nat} (hn : n ≤ 65535) :
    ∃ t, exec (.calculate ⟨true, base⟩ (BitVec.ofNat 16 n)) s = .next t ∧
      t.responses = s.responses ++ [byteWord (checksum (dataBytes s base n))] := by
  have h := exec_calc_responses ha ⟨true, base⟩ (BitVec.ofNat 16 n)
  rwa [readCount_ofNat hn] at h

/-- RESET, the parts and VALUE respond the checksum of the whole sequence. -/
theorem execAll_splitCommands {s : State} (ha : s.admits = .everywhere) (base : Addr) {ns : List Nat}
    (hn : ∀ n ∈ ns, n ≤ 65535) :
    ∃ u, execAll (.reset :: (splitCommands base ns ++ [.value])) s = .next u ∧
      u.responses = s.responses ++ [byteWord (checksum (dataBytes s base ns.sum))] := by
  obtain ⟨u, hu, hresp, -, -⟩ := execAll_manualSequence ha (isAccumulate_of_mem_splitCommands base ns)
    (flatMap_addedBytes_splitCommands s base hn)
  exact ⟨u, hu, hresp⟩

/-- Settles O34: the parts are a manual sequence over the bytes of the whole; two parts are the case of a two-item list. -/
theorem splitAccumulation : Obligations.SplitAccumulation := by
  refine ⟨fun base n1 n2 s ha hn => ?_, fun base ns s ha hn => ?_⟩
  · have hparts : ∀ n ∈ [n1, n2], n ≤ 65535 := by simp; omega
    obtain ⟨t, ht, htresp⟩ := exec_calc_responses_ofNat ha base hn
    obtain ⟨u, hu, huresp⟩ := execAll_splitCommands ha base hparts
    exact ⟨t, u, _, ht, hu, htresp, huresp⟩
  · obtain ⟨u, hu, huresp⟩ := execAll_splitCommands ha base hn
    exact ⟨u, _, hu, huresp, checksum_toNat _, exec_calc_responses_ofNat ha base⟩

/-! ### Repeated addition (R126) -/

/-- ACCB commands add their bytes one by one, in every state and whatever the launch memory admits. -/
theorem execAll_map_accb (bs : List Byte) (s : State) : execAll (bs.map .accb) s = .next (accumulateBytes s bs) := by
  induction bs generalizing s with
  | nil => rfl
  | cons b bs ih => exact ih (accumulateByte s b)

theorem byteSum_replicate (k : Nat) (b : Byte) : byteSum (List.replicate k b) = k * b.toNat := by
  rw [byteSum, List.map_replicate, List.sum_replicate, smul_eq_mul]

theorem addBytes_replicate_toNat (a b : Byte) (k : Nat) :
    (addBytes a (List.replicate k b)).toNat = (a.toNat + k * b.toNat) % 256 := by
  rw [addBytes_toNat, byteSum_replicate]

theorem addBytes_replicate_eq_self_iff (a b : Byte) (k : Nat) :
    addBytes a (List.replicate k b) = a ↔ k * b.toNat % 256 = 0 := by
  have ha := a.isLt
  rw [← BitVec.toNat_inj, addBytes_replicate_toNat]
  omega

/-- An odd byte has an inverse modulo 256, so its multiples return to 0 after 256 additions and not before. -/
theorem le_of_mul_odd_mod_eq_zero {b k : Nat} (hb : b % 2 = 1) (hk : 0 < k) (h : k * b % 256 = 0) : 256 ≤ k := by
  have hcop : Nat.Coprime 256 b := Nat.Coprime.pow_left 8 (Nat.coprime_two_left.mpr (Nat.odd_iff.mpr hb))
  exact Nat.le_of_dvd hk (hcop.dvd_of_dvd_mul_right (Nat.dvd_of_mod_eq_zero h))

theorem execAll_replicate_accb (b : Byte) (k : Nat) {s : State} (hs : s.seeded = true) :
    ∃ t, execAll (List.replicate k (.accb b)) s = .next t ∧ t.acc = addBytes s.acc (List.replicate k b) := by
  refine ⟨accumulateBytes s (List.replicate k b), ?_, by rw [accumulateBytes_acc, if_pos hs]⟩
  rw [← execAll_map_accb, List.map_replicate]

theorem addBytes_replicate_one (a : Byte) : addBytes a (List.replicate 256 0x01) = a :=
  (addBytes_replicate_eq_self_iff a 0x01 256).mpr rfl

/-- Settles O37: k times the byte is the sum of k copies of it, and 256 copies sum to a multiple of 256. -/
theorem overflowWraps : Obligations.OverflowWraps := by
  refine ⟨fun b k s hs => ?_, fun s => ?_, fun base s ha hb => ?_⟩
  · obtain ⟨t, ht, hacc⟩ := execAll_replicate_accb b k hs
    have hiff : t.acc = s.acc ↔ k * b.toNat % 256 = 0 := hacc ▸ addBytes_replicate_eq_self_iff s.acc b k
    refine ⟨t, ht, by rw [hacc, addBytes_replicate_toNat], hiff,
      fun hodd hk h => le_of_mul_odd_mod_eq_zero hodd hk (hiff.mp h), fun hk => hiff.mpr ?_⟩
    rw [hk, Nat.mul_mod_right]
  · obtain ⟨t, ht, hacc⟩ := execAll_replicate_accb 0x01 256 (seed_seeded s)
    exact ⟨t, (execAll_reset_cons _ s).trans ht, hacc.trans (addBytes_replicate_one (seed s).acc)⟩
  · obtain ⟨t, ht, hacc⟩ := exec_accbuf_acc (s := seed s) ha (seed_seeded s) ⟨true, base⟩ 256
    have hbytes : addedBytes (seed s) (.accbuf ⟨true, base⟩ 256) = List.replicate 256 0x01 := hb
    refine ⟨t, by rw [execAll_reset_cons, execAll_singleton, ht], ?_⟩
    rw [hacc, hbytes, addBytes_replicate_one, seed_acc, Config.initialValue]

end Sys2Proof.Proofs
end

section
/-! The source's properties of a checksum (R127 to R133): VERIFY against CALC, and what a change of the bytes, or of their
order, does to it. -/

namespace Sys2Proof.Proofs
open Sys2Proof Sys2Proof.Machine

/-! ### The response words as values -/

theorem byteWord_inj {v w : Byte} : byteWord v = byteWord w ↔ v = w := by
  have hv := v.isLt
  have hw := w.isLt
  simp only [byteWord, ← BitVec.toNat_inj, BitVec.toNat_ofNat]
  omega

theorem boolWord_eq_0x101_iff {b : Bool} : boolWord b = 0x101 ↔ b = true := by cases b <;> decide

theorem boolWord_eq_0x100_iff {b : Bool} : boolWord b = 0x100 ↔ b = false := by cases b <;> decide

theorem checksum_eq_iff {bs : List Byte} {c : Byte} : checksum bs = c ↔ (255 + byteSum bs) % 256 = c.toNat := by
  rw [← BitVec.toNat_inj, checksum_toNat]

/-! ### VERIFY and CALC (R127, R128, R132, R133) -/

/-- CALC has no next state but over an admitted sequence. -/
theorem dataAdmitted_of_exec_calc {h : Handle} {len : Len} {s t : State} (ht : exec (.calculate h len) s = .next t) :
    dataAdmitted s h.base (readCount h len) := by
  obtain ⟨ha, -⟩ | ⟨a, -, hr⟩ := readSequence_cases h len s (fun bs t => .next (respondByte (checksum bs) t))
  · exact ha
  · exact nomatch hr.symm.trans ht

/-- Settles O39: both compute one checksum of one sequence, and a word of kind boolean is one of two. -/
theorem verifyIsCalcCompared : Obligations.VerifyIsCalcCompared := by
  intro h len s t ht
  have ha := dataAdmitted_of_exec_calc ht
  obtain rfl := Host.Outcome.next.inj ((exec_calc ha).symm.trans ht)
  refine ⟨checksum (dataBytes s h.base (readCount h len)), rfl, fun e => ⟨_, exec_verify e ha, rfl, ?_, ?_⟩,
    ⟨_, exec_verify _ ha, ?_⟩⟩
  · rw [List.append_right_inj, List.singleton_inj, boolWord_eq_0x101_iff, beq_iff_eq, eq_comm]
  · rw [List.append_right_inj, List.singleton_inj, boolWord_eq_0x100_iff, beq_eq_false_iff_ne, ne_comm]
  · rw [List.append_right_inj, List.singleton_inj, boolWord_eq_0x101_iff, beq_iff_eq]

section
variable {s : State} (ha : s.admits = .everywhere) {h : Handle} {len : Len} {bs : List Byte}
  (hb : dataBytes s h.base (readCount h len) = bs)
include ha hb

/-- The bytes of the sequence settle CALC's response. -/
theorem exec_calc_of_bytes {c : Byte} (hc : checksum bs = c) :
    ∃ t, exec (.calculate h len) s = .next t ∧ t.responses = s.responses ++ [byteWord c] := by
  rw [← hc, ← hb]
  exact exec_calc_responses ha h len

theorem exec_verify_true_of_bytes {e : Byte} (hc : checksum bs = e) :
    ∃ t, exec (.verify h len e) s = .next t ∧ t.responses = s.responses ++ [0x101] := by
  have hword : boolWord (checksum bs == e) = 0x101 := boolWord_eq_0x101_iff.mpr (beq_iff_eq.mpr hc)
  rw [← hword, ← hb]
  exact exec_verify_responses ha h len e

theorem exec_verify_false_of_bytes {e : Byte} (hc : checksum bs ≠ e) :
    ∃ t, exec (.verify h len e) s = .next t ∧ t.responses = s.responses ++ [0x100] := by
  have hword : boolWord (checksum bs == e) = 0x100 := boolWord_eq_0x100_iff.mpr (beq_eq_false_iff_ne.mpr hc)
  rw [← hword, ← hb]
  exact exec_verify_responses ha h len e

end

/-- Settles O38: the checksums of the two sequences are 0xFF and 0x05. -/
theorem concreteScenarios : Obligations.ConcreteScenarios := by
  refine fun base s ha => ⟨fun hb => ?_, fun hb => ⟨?_, ?_, ?_⟩⟩
  · exact exec_calc_of_bytes ha hb (c := 0xFF) (by decide)
  · exact exec_calc_of_bytes ha hb (c := 0x05) (by decide)
  · exact exec_verify_true_of_bytes ha hb (by decide)
  · exact exec_verify_false_of_bytes ha hb (by decide)

theorem checksum_asciiDigits : checksum [0x31, 0x32, 0x33, 0x34, 0x35, 0x36, 0x37, 0x38, 0x39] = 0xDC := by decide

/-- Settles O44: the checksum of the nine bytes is 0xDC, which is none of the four check values. -/
theorem notACrc : Obligations.NotACrc := by
  refine fun base s ha hb => ⟨exec_calc_of_bytes ha hb checksum_asciiDigits, fun c hc => ?_⟩
  refine exec_verify_false_of_bytes ha hb ?_
  rw [checksum_asciiDigits]
  obtain rfl | rfl | rfl | rfl := hc <;> decide

/-- Settles O43: 255 and the bytes leave 255, or 0, modulo 256 exactly when the bytes alone leave 0, or 1. -/
theorem initialValueChecksums : Obligations.InitialValueChecksums := by
  intro h len s ha
  obtain ⟨t, ht, hresp⟩ := exec_calc_responses ha h len
  have hiff (c : Byte) : t.responses = s.responses ++ [byteWord c] ↔
      (255 + byteSum (addedBytes s (.accbuf h len))) % 256 = c.toNat := by
    rw [hresp, List.append_right_inj, List.singleton_inj, byteWord_inj, checksum_eq_iff, addedBytes]
  refine ⟨t, ht, (hiff 0xFF).trans ?_, (hiff 0x00).trans ?_⟩
  · show _ = 255 ↔ _
    omega
  · show _ = 0 ↔ _
    omega

/-! ### Order and neutral parts (R129, R130) -/

/-- Adding a sequence depends on its sum modulo 256 only. -/
theorem addBytes_congr {bs cs : List Byte} (h : byteSum bs ≡ byteSum cs [MOD 256]) (a : Byte) :
    addBytes a bs = addBytes a cs :=
  BitVec.eq_of_toNat_eq (by rw [addBytes_toNat, addBytes_toNat]; exact h.add_left a.toNat)

/-- Two sequences whose sums agree modulo 256, in any two states, get one CALC response. -/
theorem exec_calc_agree {s s' : State} {h h' : Handle} {len len' : Len} (ha : s.admits = .everywhere)
    (ha' : s'.admits = .everywhere)
    (hsum : byteSum (addedBytes s (.accbuf h len)) ≡ byteSum (addedBytes s' (.accbuf h' len')) [MOD 256]) :
    ∃ t t' v, exec (.calculate h len) s = .next t ∧ exec (.calculate h' len') s' = .next t' ∧
      t.responses = s.responses ++ [byteWord v] ∧ t'.responses = s'.responses ++ [byteWord v] := by
  obtain ⟨t, ht, hresp⟩ := exec_calc_of_bytes ha rfl (addBytes_congr hsum Config.initialValue)
  obtain ⟨t', ht', hresp'⟩ := exec_calc_responses ha' h' len'
  exact ⟨t, t', _, ht, ht', hresp, hresp'⟩

/-- Settles O40: a permutation has the same sum, and only the sum enters CALC's response and ACC. -/
theorem orderIndependence : Obligations.OrderIndependence := by
  intro h h' len len' s s' ha ha' hperm
  have hsum : byteSum (addedBytes s (.accbuf h len)) ≡ byteSum (addedBytes s' (.accbuf h' len')) [MOD 256] :=
    congrArg (· % 256) (byteSum_perm hperm)
  refine ⟨exec_calc_agree ha ha' hsum, fun hs hs' hacc => ?_⟩
  obtain ⟨t, ht, htacc⟩ := exec_accbuf_acc ha hs h len
  obtain ⟨t', ht', htacc'⟩ := exec_accbuf_acc ha' hs' h' len'
  exact ⟨t, t', ht, ht', by rw [htacc, htacc', hacc, addBytes_congr hsum]⟩

theorem add8_zero (a : Byte) : add8 a 0x00 = a := (add8_eq_add a 0).trans (add_zero a)

/-- Settles O41: the neutral part adds a multiple of 256 to the sum, and the byte 0x00 nothing at all. -/
theorem neutralSubsequence : Obligations.NeutralSubsequence := by
  refine ⟨fun h h' len len' s s' s1 z s2 ha ha' hz hb hb' => exec_calc_agree ha ha' ?_, fun s => ?_⟩
  · rw [hb, hb']
    simp only [byteSum_append, Nat.ModEq]
    omega
  · rw [exec_accb, accumulateByte, add8_zero, ite_self]

/-! ### One changed byte (R131) -/

theorem addBytes_eq_add_sum (a : Byte) (bs : List Byte) : addBytes a bs = a + bs.sum := by
  induction bs generalizing a with
  | nil => exact (add_zero a).symm
  | cons b bs ih => rw [addBytes_cons, ih, add8_eq_add, List.sum_cons, add_assoc]

/-- Changing one byte changes the checksum by the difference of the bytes. -/
theorem checksum_set {bs : List Byte} {j : Nat} (hj : j < bs.length) (v : Byte) :
    checksum (bs.set j v) = checksum bs + (v - bs[j]) := by
  rw [checksum, checksum, addBytes_eq_add_sum, addBytes_eq_add_sum, List.sum_set', dif_pos hj, add_assoc, neg_add_eq_sub]

theorem dataBytes_getElem (s : State) (base : Addr) {n i : Nat} (hi : i < (dataBytes s base n).length) :
    (dataBytes s base n)[i] = memRead s (effectiveAddr base i) := by
  simp [dataBytes, memRead_effectiveAddr]

/-- Two places of one sequence have two addresses, since no sequence is longer than the buffer space (R47). -/
theorem effectiveAddr_inj {base : Addr} {i j : Nat} (hi : i < 65536) (hj : j < 65536) :
    effectiveAddr base i = effectiveAddr base j ↔ i = j := by
  rw [← BitVec.toNat_inj, effectiveAddr_toNat, effectiveAddr_toNat]
  omega

/-- A store at one place of a sequence changes that one byte of it. -/
theorem dataBytes_hostStore {s : State} (hw : cellsWf s.mem = true) (base : Addr) {n j : Nat} (hn : n ≤ 65536)
    (hj : j < n) (v : Byte) :
    dataBytes (hostStore (effectiveAddr base j) v s) base n = (dataBytes s base n).set j v := by
  refine List.ext_getElem (by simp) fun i hi _ => ?_
  rw [dataBytes_length] at hi
  have hplace : effectiveAddr base i = effectiveAddr base j ↔ j = i :=
    (effectiveAddr_inj (by omega) (by omega)).trans eq_comm
  simp only [dataBytes_getElem, memRead_hostStore hw, List.getElem_set, hplace]

theorem checksum_hostStore {s : State} (hw : cellsWf s.mem = true) (base : Addr) {n j : Nat} (hn : n ≤ 65536)
    (hj : j < n) (v : Byte) :
    checksum (dataBytes (hostStore (effectiveAddr base j) v s) base n) =
      checksum (dataBytes s base n) + (v - memRead s (effectiveAddr base j)) := by
  rw [dataBytes_hostStore hw base hn hj, checksum_set (by rwa [dataBytes_length]), dataBytes_getElem]

/-- Settles O42: each store moves the checksum by its own difference, and the second finds the byte it replaces as it was
before the first. -/
theorem singleChangeIsDetected : Obligations.SingleChangeIsDetected := by
  intro base len s j v' ha hw hj hne
  simp only [← effectiveAddr_eq_ofNat] at hne ⊢
  have hn : len.toNat ≤ 65536 := len.isLt.le
  have hc := checksum_hostStore hw base hn hj v'
  obtain ⟨t, ht, hresp⟩ := exec_calc_responses ha ⟨true, base⟩ len
  refine ⟨t, _, ht, hresp, exec_calc_of_bytes (s := hostStore _ v' s) ha rfl hc,
    exec_verify_false_of_bytes (s := hostStore _ v' s) ha rfl ?_, fun k w' hk hkj hcancel => ?_⟩
  · exact fun h => sub_ne_zero.mpr hne (left_eq_add.mp (h.symm.trans hc))
  · have hread : memRead (hostStore (effectiveAddr base j) v' s) (effectiveAddr base k) =
        memRead s (effectiveAddr base k) := by
      rw [memRead_hostStore hw, if_neg (mt (effectiveAddr_inj (by omega) (by omega)).mp hkj)]
    refine exec_verify_true_of_bytes (s := hostStore _ w' (hostStore _ v' s)) ha rfl ?_
    calc checksum (dataBytes (hostStore (effectiveAddr base k) w' (hostStore (effectiveAddr base j) v' s)) base len.toNat)
        = checksum (dataBytes s base len.toNat) + (v' - memRead s (effectiveAddr base j)) +
            (w' - memRead s (effectiveAddr base k)) := by
          rw [checksum_hostStore (cellsWf_writeCells _ v' hw) base hn hk, hc, hread]
      _ = checksum (dataBytes s base len.toNat) := by rw [add_assoc, hcancel, add_zero]

end Sys2Proof.Proofs
end

section
/-! Power-on (R160, R33): the state the machine starts in, and the base case of the invariant. -/

namespace Sys2Proof.Proofs
open Sys2Proof Sys2Proof.Machine

/-- The default launch memory admits every address (R50). -/
theorem admitsAddr_of_everywhere {s : State} (hs : s.admits = .everywhere) (a : Addr) : s.admitsAddr a = true := by
  rw [State.admitsAddr, hs]

/-- Settles O45: the launch memory of power-on is the default. -/
theorem powerOnState : Obligations.PowerOnState := ⟨rfl, rfl, rfl, admitsAddr_of_everywhere rfl⟩

/-- Settles O46: no cells are canonical cells, and there is no response to be illegal. -/
theorem powerOnMeetsInvariant : Obligations.PowerOnMeetsInvariant := inv_iff.mpr ⟨cellsWf_nil, List.all_nil⟩

end Sys2Proof.Proofs
end

section
/-! What each command leaves unchanged (R92 to R95, R110, R111). -/

namespace Sys2Proof.Proofs
open Sys2Proof Sys2Proof.Machine

/-- Settles O25: one clause for each command of `exec_frame`. -/
theorem commandFrames : Obligations.CommandFrames :=
  ⟨fun _ _ => exec_frame (i := .reset), fun b _ _ => exec_frame (i := .accb b),
    fun h len _ _ => exec_frame (i := .accbuf h len), fun _ _ => exec_frame (i := .value),
    fun h len _ _ => exec_frame (i := .calculate h len), fun h len e _ _ => exec_frame (i := .verify h len e)⟩

end Sys2Proof.Proofs
end
